-- ==== Sys2Proof/Word.lean ====
section
/-! DEFINITION. The word types of KSE (R5, R6): every value is unsigned and of a fixed width. -/

namespace Sys2Proof

/-- A byte of the state, of the input or of the output (R21). -/
abbrev Byte := BitVec 8

/-- A 16-bit field: OUTLEN, REMAIN, CFG_OUTLEN (R29, R32, R35). -/
abbrev Half := BitVec 16

/-- A command word or a control register's image (R46, R100). -/
abbrev Word := BitVec 32

/-- A lane, `LANE_W` = 64 bits, and the data of a bus transaction, at most 64 bits (R5, R70). -/
abbrev Lane := BitVec 64

/-- The state register S, 1600 bits; bit `8*i + b` is bit `b` of `S.byte[i]` (R20, R23). -/
abbrev StateReg := BitVec 1600

/-- A byte offset into the 4096-byte register space (R70, R71). -/
abbrev Offset := BitVec 12

end Sys2Proof
end

