-- ==== Sys2Proof/Syntax.lean ====
section
/-! DEFINITION. The nine commands (R103), one constructor per row of spec/opcode_table.json. -/

namespace Sys2Proof

/-- A decoded command. The operand of SELVAR and of ABSORB is the 8-bit IMM field, taken unsigned (R102). -/
inductive Instr where
  /-- R190. -/
  | nop
  /-- R191. -/
  | init
  /-- R192; `imm` is the variant selector. -/
  | selvar (imm : Byte)
  /-- R193. -/
  | setcfg
  /-- R161; `imm` is the data byte. -/
  | absorb (imm : Byte)
  /-- R162. -/
  | pad
  /-- R163. -/
  | squeeze
  /-- R136. -/
  | permute
  /-- R195. -/
  | clrerr
  deriving DecidableEq, Repr

end Sys2Proof
end

