-- ==== Sys2Proof/WellFormed.lean ====
section
/-! DEFINITION. Which terms of `Instr` a legal command word can stand for (R104). -/

namespace Sys2Proof

/-- R103, R104: the only operand with a limit is SELVAR's selector, 0 to 3. -/
def Instr.wellFormed : Instr → Bool
  | .nop => true
  | .init => true
  | .selvar imm => imm.toNat ≤ 3
  | .setcfg => true
  | .absorb _ => true
  | .pad => true
  | .squeeze => true
  | .permute => true
  | .clrerr => true

end Sys2Proof
end

