-- ==== Sys2Proof/Decode.lean ====
section
/-! DEFINITION. Command words: the decoder, the encoder and the opcode table (30_encoding.md R100 to R111). -/

namespace Sys2Proof

/-- OP, bits [7:0] (R101). -/
def fieldOp (v : Word) : Byte := v.extractLsb' 0 8

/-- IMM, bits [15:8], unsigned, neither extended nor scaled (R101, R102). -/
def fieldImm (v : Word) : Byte := v.extractLsb' 8 8

/-- RSV, bits [31:16] (R101). -/
def fieldRsv (v : Word) : Half := v.extractLsb' 16 16

/-- Why a command word is illegal (R106). Each of them records ILLEGAL. -/
inductive DecodeError where
  /-- RSV is not zero. -/
  | reservedNotZero
  /-- OP is 0x09 to 0xFF. -/
  | illegalOpcode
  /-- IMM is not zero on a command without an operand. -/
  | immediateNotZero
  /-- SELVAR with a selector of 4 to 255. -/
  | selectorOutOfRange
  deriving DecidableEq, Repr

/-- A command without an operand requires `IMM = 0` (R102). -/
def decodeNoOperand (imm : Byte) (i : Instr) : Except DecodeError Instr :=
  if imm = 0 then .ok i else .error .immediateNotZero

/-- R103, R105: the command a word stands for, or the reason why it is illegal. -/
def decodeWord (v : Word) : Except DecodeError Instr :=
  if fieldRsv v ≠ 0 then .error .reservedNotZero
  else
    match (fieldOp v).toNat with
    | 0x00 => decodeNoOperand (fieldImm v) .nop
    | 0x01 => decodeNoOperand (fieldImm v) .init
    | 0x02 => if (fieldImm v).toNat ≤ 3 then .ok (.selvar (fieldImm v)) else .error .selectorOutOfRange
    | 0x03 => decodeNoOperand (fieldImm v) .setcfg
    | 0x04 => .ok (.absorb (fieldImm v))
    | 0x05 => decodeNoOperand (fieldImm v) .pad
    | 0x06 => decodeNoOperand (fieldImm v) .squeeze
    | 0x07 => decodeNoOperand (fieldImm v) .permute
    | 0x08 => decodeNoOperand (fieldImm v) .clrerr
    | _ => .error .illegalOpcode

/-- Format C (R101): RSV zero, then IMM, then OP; `(imm << 8) | OP` (R108). -/
def formatC (imm op : Byte) : Word := (imm.setWidth 32 <<< 8) ||| op.setWidth 32

/-- The command word of an instruction (R103, R111). -/
def encode : Instr → Word
  | .nop => formatC 0 0x00
  | .init => formatC 0 0x01
  | .selvar imm => formatC imm 0x02
  | .setcfg => formatC 0 0x03
  | .absorb imm => formatC imm 0x04
  | .pad => formatC 0 0x05
  | .squeeze => formatC 0 0x06
  | .permute => formatC 0 0x07
  | .clrerr => formatC 0 0x08

/-- The command word of a row of the opcode table: bits from `nbits` up are zero. A command is one 32-bit word (R100),
so the table's bit numbering is the word's own. -/
def tableWord (nbits w : Nat) : Word := BitVec.ofNat 32 (w % 2 ^ nbits)

/-- What the decoder reads from the word `w` of a row of `nbits` bits; `none` where it refuses. -/
def decodeTableWord (nbits w : Nat) : Option Instr :=
  match decodeWord (tableWord nbits w) with
  | .ok i => some i
  | .error _ => none

/-- A row of spec/opcode_table.json: the word matches if its bits under `mask` are `pattern`. -/
structure OpcodeRow where
  mnemonic : String
  mask : Word
  pattern : Word
  deriving DecidableEq, Repr

/-- spec/opcode_table.json, in its order. -/
def opcodeTable : List OpcodeRow :=
  [⟨"NOP", 0xFFFFFFFF, 0x00000000⟩, ⟨"INIT", 0xFFFFFFFF, 0x00000001⟩, ⟨"SELVAR", 0xFFFFFCFF, 0x00000002⟩,
   ⟨"SETCFG", 0xFFFFFFFF, 0x00000003⟩, ⟨"ABSORB", 0xFFFF00FF, 0x00000004⟩, ⟨"PAD", 0xFFFFFFFF, 0x00000005⟩,
   ⟨"SQUEEZE", 0xFFFFFFFF, 0x00000006⟩, ⟨"PERMUTE", 0xFFFFFFFF, 0x00000007⟩, ⟨"CLRERR", 0xFFFFFFFF, 0x00000008⟩]

/-- The word matches the row. -/
def OpcodeRow.matchesWord (r : OpcodeRow) (v : Word) : Bool := v &&& r.mask == r.pattern

/-- Some word matches both rows: their patterns agree wherever both masks look. -/
def OpcodeRow.overlaps (r q : OpcodeRow) : Bool := (r.pattern ^^^ q.pattern) &&& r.mask &&& q.mask == 0

/-- The mnemonic of an instruction, as the table spells it. -/
def Instr.mnemonic : Instr → String
  | .nop => "NOP"
  | .init => "INIT"
  | .selvar _ => "SELVAR"
  | .setcfg => "SETCFG"
  | .absorb _ => "ABSORB"
  | .pad => "PAD"
  | .squeeze => "SQUEEZE"
  | .permute => "PERMUTE"
  | .clrerr => "CLRERR"

end Sys2Proof
end

