-- ==== Sys2Proof/Config.lean ====
section
/-! DEFINITION. What an implementation fixes (R5) and the values the spec leaves unspecified (R8, 93_implementation_defined.md). -/

namespace Sys2Proof.Config

/-- `STATE_BYTES` (R5, R20). -/
def stateBytes : Nat := 200

/-- `NR`, rounds per permutation (R5, R129). -/
def rounds : Nat := 24

/-- `draw()` (R8; U1, U2, U3): the value the hardware does not specify, fresh at each use. It has no body, so no proof
sees a value of it; its argument is the number of draws taken before (`State.drawCount`). DESIGN CHOICE, log 3: safe. -/
opaque draw : Nat → Lane

/-- `KE_BASE` (R71, U5) in units of 4096 bytes: OPEN, so it has no body (log 7). -/
opaque kePage : Nat

/-- `KE_BASE`, the base address of the register space, aligned to 4096 bytes (R71). -/
def keBase : Nat := 4096 * kePage

/-- The host address of the register at `off` (R8, R71). -/
def hostAddress (off : Offset) : Nat := keBase + off.toNat

/-- A bus protocol, known by an identifier that nothing interprets: the placement of data on the physical lanes and the
handshake signals belong to the protocol (R70), and the model sees transactions only. -/
structure BusProtocol where
  identifier : Nat
  deriving DecidableEq, Repr, Inhabited

/-- `KE_BUS` (R5, R70, U6): OPEN, so it has no body; no rule reads it (log 7). -/
opaque keBus : BusProtocol

/-- What the host does on a bus ERROR response (R82): a platform matter. -/
inductive BusErrAction where
  | trap
  | ignore
  deriving DecidableEq, Repr, Inhabited

/-- `KE_BUSERR_ACTION` (R82, U4): OPEN. KSE's own state is unchanged either way, and the host's later accesses are
whatever `State.program` holds, so no rule reads it (log 7). -/
opaque keBusErrAction : BusErrAction

/-- The kind and polarity of `rst` (R70, R250). -/
structure ResetKind where
  synchronous : Bool
  activeHigh : Bool
  deriving DecidableEq, Repr, Inhabited

/-- `KE_RESET_KIND` (R250, U7): OPEN; "No rule depends on it" (log 7). -/
opaque keResetKind : ResetKind

/-- `KE_RETENTION` (R236, U8): OPEN; a model treats power or clock removal as reset (log 7). -/
opaque keRetention : Bool

end Sys2Proof.Config
end

