-- ==== Sys2Proof/Machine/State.lean ====
section
/-! DEFINITION. The state of KSE (R62), the outside world as plain data, the reasons a step can stop, and reset (R250). -/

namespace Sys2Proof.Machine

/-- PHASE (R33). Code 3 is never produced, so it has no name here (U10, log 12). -/
inductive Phase where
  | absorb
  | squeeze
  | done
  deriving DecidableEq, Repr

/-- ERR (R42, R220). Codes 6 to 15 are never produced, so they have no name here (U10, log 12). -/
inductive ErrCode where
  | noError
  | illegal
  | busy
  | phase
  | nocfg
  | config
  deriving DecidableEq, Repr

/-- The complete KSE state, field by field as R62 lists it. -/
structure Kse where
  /-- S (R20). -/
  sreg : StateReg
  /-- CONFIGURED (R29). -/
  configured : Bool
  /-- RATE (R29). -/
  rate : Byte
  /-- CAP (R29). -/
  cap : Byte
  /-- SUFFIX (R29). -/
  suffix : Byte
  /-- OUTLEN (R29). -/
  outlen : Half
  /-- CFG_RATE (R32, R52). -/
  cfgRate : Byte
  /-- CFG_CAP (R32, R53). -/
  cfgCap : Byte
  /-- CFG_SUFFIX (R32, R54). -/
  cfgSuffix : Byte
  /-- CFG_OUTLEN (R32, R55). -/
  cfgOutlen : Half
  /-- PHASE (R33). -/
  phase : Phase
  /-- POS (R34). -/
  pos : Byte
  /-- REMAIN (R35). -/
  remain : Half
  /-- DOUT (R36). -/
  dout : Byte
  /-- BUSY (R38). -/
  busy : Bool
  /-- CONT (R39). -/
  cont : Bool
  /-- RND (R40). -/
  rnd : BitVec 5
  /-- LFSR (R41). -/
  lfsr : Byte
  /-- ERR (R42). -/
  err : ErrCode
  /-- PERMCNT (R43). -/
  permcnt : Word
  deriving DecidableEq, Repr

/-- The size of a bus access: 1, 2, 4 or 8 bytes (R70). -/
inductive Size where
  | b1
  | b2
  | b4
  | b8
  deriving DecidableEq, Repr

/-- One bus transaction (R70). The data of a write of `n` bytes is the low `8*n` bits of `data` (log 8). -/
inductive Access where
  | read (off : Offset) (size : Size)
  | write (off : Offset) (size : Size) (data : Lane)
  deriving DecidableEq, Repr

/-- What the host does in its turn (log 13). -/
inductive HostOp where
  /-- One bus access. -/
  | access (a : Access)
  /-- One round of the WAIT poll loop (R109). -/
  | wait
  /-- The byte reads of RDDIGEST, as many as the active OUTLEN when the host comes to them (R29, R109). -/
  | digest
  deriving DecidableEq, Repr

/-- Who moves: the host, the engine (R2), or the reset input (R250). -/
inductive Turn where
  | host
  | engine
  | reset
  deriving DecidableEq, Repr

/-- The response of a bus transaction: OK or ERROR, read data zero-extended to 64 bits (R70, R82, log 8). -/
inductive Response where
  | readOk (data : Lane)
  | writeOk
  | readError (data : Lane)
  | writeError
  deriving DecidableEq, Repr

/-- The machine: KSE, and the outside world as plain data (log 1). -/
structure State where
  /-- The KSE state (R62). -/
  kse : Kse
  /-- What the host is going to do, first operation first (R44: the program is the sequence of the host's accesses). -/
  program : List HostOp
  /-- Who moves in the next steps; when it is empty, the engine while BUSY = 1, else the host (R2, log 2). -/
  sched : List Turn
  /-- The response of the last bus transaction (R70). -/
  response : Option Response
  /-- How many `draw()` values have been taken (R8, log 3). -/
  drawCount : Nat
  deriving DecidableEq, Repr

/-- The one fault of the model. -/
inductive Fault where
  /-- ABSORB, PAD, SQUEEZE or the engine's completion of a collision-case PAD addresses `S.byte[i]` with `i ≥ 200`.
  No run reaches it (R30, R34); it stands so that no such index gets an invented byte. Safe (log 4). -/
  | noSuchByte
  deriving DecidableEq, Repr

/-- The refusals of the model. -/
inductive Refusal where
  /-- Raised by an arm of `exec` whose instruction has no meaning yet; no arm uses it. Safe. -/
  | notModelled (mnemonic : String)
  deriving DecidableEq, Repr

/-- The answer of a step. -/
abbrev Result := Host.Outcome State Fault Refusal

/-- R250: every field at its reset value. -/
def Kse.reset : Kse where
  sreg := 0
  configured := false
  rate := 0
  cap := 0
  suffix := 0
  outlen := 0
  cfgRate := 0
  cfgCap := 0
  cfgSuffix := 0
  cfgOutlen := 0
  phase := .absorb
  pos := 0
  remain := 0
  dout := 0
  busy := false
  cont := false
  rnd := 0
  lfsr := 0x01
  err := .noError
  permcnt := 0

/-- R250, R251: KSE at reset, waiting for host accesses; no access pending, none made (DESIGN CHOICE, log 1, log 3). -/
def State.reset : State where
  kse := Kse.reset
  program := []
  sched := []
  response := none
  drawCount := 0

end Sys2Proof.Machine
end

