-- ==== Sys2Proof/Machine/Ops.lean ====
section
/-! DEFINITION. The views of S and the shared operations of the commands: recording an error (KSE's whole exception
entry), `init_effects`, `start_perm`, the BUSY check, the sponge gate, `draw`. -/

namespace Sys2Proof.Machine

/-! ### The state register S and its two views (R20 to R27) -/

/-- `S.byte[i]`, for `i < 200` (R21, R23). -/
def byteOf (S : StateReg) (i : Nat) : Byte := S.extractLsb' (8 * i) 8

/-- S with byte `i` replaced by `b`, for `i < 200`. -/
def setByte (S : StateReg) (i : Nat) (b : Byte) : StateReg :=
  (S &&& ~~~((0xFF#8).setWidth 1600 <<< (8 * i))) ||| (b.setWidth 1600 <<< (8 * i))

/-- A 5 by 5 array of lanes, `A[x][y]` (40_permutation.md): a value, not state. -/
abbrev Lanes := Fin 5 → Fin 5 → Lane

/-- The linear index of lane `(x, y)`: x varies fastest (R27). -/
def laneIndex (x y : Fin 5) : Nat := x.val + 5 * y.val

/-- `S.lane[x][y]`: bytes `8*(x+5*y)` to `8*(x+5*y)+7`, little-endian (R22 to R24). -/
def toLanes (S : StateReg) : Lanes := fun x y => S.extractLsb' (64 * laneIndex x y) 64

/-- The first `n` lanes of `L` in linear order, packed from bit 0 up. -/
def packLanes (L : Lanes) : Nat → StateReg
  | 0 => 0
  | n + 1 => packLanes L n ||| ((L (Fin.ofNat 5 n) (Fin.ofNat 5 (n / 5))).setWidth 1600 <<< (64 * n))

/-- The state whose lanes are `L`: linear index `i` is lane `(i mod 5, i div 5)` (R25, R27). -/
def fromLanes (L : Lanes) : StateReg := packLanes L 25

/-! ### Errors (60_exceptions.md) -/

/-- R221 `record_error`: the first error is kept. No control is transferred and nothing else is saved (R223). -/
def Kse.recordError (k : Kse) (c : ErrCode) : Kse :=
  if k.err = .noError then { k with err := c } else k

/-! ### Primitives of the commands -/

/-- R191 `init_effects`. -/
def Kse.initEffects (k : Kse) : Kse :=
  { k with sreg := 0, phase := .absorb, pos := 0, remain := 0, dout := 0, err := .noError, permcnt := 0 }

/-- R132 `start_perm(c)`. -/
def Kse.startPerm (k : Kse) (c : Bool) : Kse :=
  { k with busy := true, cont := c, rnd := 0, lfsr := 0x01 }

/-- R105, R222 check 1: while BUSY = 1 a command is not executed and BUSY is recorded. -/
def Kse.command (body : Kse → Except Fault Kse) (k : Kse) : Except Fault Kse :=
  if k.busy then .ok (k.recordError .busy) else body k

/-- R160, R222 checks 3 to 5: the sponge gate for a command that requires phase `p`. -/
def Kse.sponge (p : Phase) (body : Kse → Except Fault Kse) (k : Kse) : Except Fault Kse :=
  if k.configured = false then .ok (k.recordError .nocfg)
  else if k.phase ≠ p then .ok (k.recordError .phase)
  else if k.err ≠ .noError then .ok k
  else body k

/-- A step of KSE as a step of the machine: the outside world is left as it is. -/
def State.onKse (f : Kse → Except Fault Kse) (s : State) : Host.Outcome State Fault Refusal :=
  match f s.kse with
  | .ok k => .next { s with kse := k }
  | .error e => .fault e

/-! ### Unspecified values -/

/-- R8 `draw()`: a fresh unspecified value, and the state in which it has been taken (log 3). -/
def State.takeDraw (s : State) : Lane × State :=
  (Config.draw s.drawCount, { s with drawCount := s.drawCount + 1 })

end Sys2Proof.Machine
end

