-- ==== Sys2Proof/Machine/Operands.lean ====
section
/-! DEFINITION. The operands of the commands (R102): bytes of S through POS and RATE, the variant ROM, the staged
configuration. -/

namespace Sys2Proof.Machine

/-- `S.byte[i]` as an operand. An index outside S is no byte (log 4). -/
def Kse.readByte (k : Kse) (i : Nat) : Except Fault Byte :=
  if i < Config.stateBytes then .ok (byteOf k.sreg i) else .error .noSuchByte

/-- `S.byte[i] <- S.byte[i] ^ b`. An index outside S is no byte (log 4). -/
def Kse.xorByte (k : Kse) (i : Nat) (b : Byte) : Except Fault Kse :=
  if i < Config.stateBytes then .ok { k with sreg := setByte k.sreg i (byteOf k.sreg i ^^^ b) }
  else .error .noSuchByte

/-- The index `RATE - 1` of the last byte of a block (R134, R162), 8 bits wide as RATE is (R6). -/
def Kse.lastIndex (k : Kse) : Nat := (k.rate - 1).toNat

/-- `(OUTLEN, RATE, CAP, SUFFIX)`, the source's VariantConfig (R29). -/
structure Variant where
  outlen : Half
  rate : Byte
  cap : Byte
  suffix : Byte
  deriving DecidableEq, Repr

/-- R31 `VARIANT_ROM`, by selector; there is no row beyond selector 3. -/
def variantRom (sel : Byte) : Option Variant :=
  match sel.toNat with
  | 0 => some ⟨28, 144, 56, 0x06⟩
  | 1 => some ⟨32, 136, 64, 0x06⟩
  | 2 => some ⟨48, 104, 96, 0x06⟩
  | 3 => some ⟨64, 72, 128, 0x06⟩
  | _ => none

/-- The staged configuration CFG_* as SETCFG samples it (R193, R259). -/
def Kse.staged (k : Kse) : Variant := ⟨k.cfgOutlen, k.cfgRate, k.cfgCap, k.cfgSuffix⟩

/-- R194 `cfg_valid`: the sum is an integer sum; the suffix is not validated. -/
def Variant.valid (v : Variant) : Bool :=
  1 ≤ v.rate.toNat && v.rate.toNat ≤ 199 && v.rate.toNat + v.cap.toNat == 200 && 1 ≤ v.outlen.toNat

/-- The active configuration becomes `v` and CONFIGURED becomes 1 (R192, R193). -/
def Kse.loadVariant (k : Kse) (v : Variant) : Kse :=
  { k with configured := true, rate := v.rate, cap := v.cap, suffix := v.suffix, outlen := v.outlen }

/-- R193, a failed validation: CONFIGURED, the active configuration, PHASE, POS and REMAIN are cleared. -/
def Kse.unconfigure (k : Kse) : Kse :=
  { k with
    configured := false, rate := 0, cap := 0, suffix := 0, outlen := 0, phase := .absorb, pos := 0, remain := 0 }

end Sys2Proof.Machine
end

