-- ==== Sys2Proof/Machine/Control.lean ====
section
/-! DEFINITION. The control family: NOP (R190), INIT (R191), SELVAR (R192), SETCFG (R193), CLRERR (R195). -/

namespace Sys2Proof.Machine

/-- R190 NOP: no effect; while BUSY = 1 it records BUSY like any command. -/
def execNop (s : State) : Host.Outcome State Fault Refusal :=
  s.onKse (Kse.command fun k => .ok k)

/-- R191 INIT. -/
def execInit (s : State) : Host.Outcome State Fault Refusal :=
  s.onKse (Kse.command fun k => .ok k.initEffects)

/-- R192 SELVAR: the row of the variant ROM, then `init_effects`. A selector above 3 is ILLEGAL; no legal word carries
one (log 9). -/
def Kse.selectVariant (imm : Byte) (k : Kse) : Except Fault Kse :=
  match variantRom imm with
  | some v => .ok (k.loadVariant v).initEffects
  | none => .ok (k.recordError .illegal)

/-- R192 SELVAR. -/
def execSelvar (imm : Byte) (s : State) : Host.Outcome State Fault Refusal :=
  s.onKse (Kse.command (Kse.selectVariant imm))

/-- R193 SETCFG: loads the staged configuration if it is valid, else unconfigures and records CONFIG. -/
def Kse.setConfig (k : Kse) : Except Fault Kse :=
  if k.staged.valid then .ok (k.loadVariant k.staged).initEffects
  else .ok (k.unconfigure.recordError .config)

/-- R193 SETCFG. -/
def execSetcfg (s : State) : Host.Outcome State Fault Refusal :=
  s.onKse (Kse.command Kse.setConfig)

/-- R195 CLRERR. -/
def execClrerr (s : State) : Host.Outcome State Fault Refusal :=
  s.onKse (Kse.command fun k => .ok { k with err := .noError })

end Sys2Proof.Machine
end

