-- ==== Sys2Proof/Machine/Keccak.lean ====
section
/-! DEFINITION. The permutation on lane arrays: rotl64, the four steps, the round, Keccak-f[1600] (R120 to R130). -/

namespace Sys2Proof.Machine

/-- R120: rotate left by `n mod 64`; no shift by 64 is performed. -/
def rotl64 (a : Lane) (n : Nat) : Lane :=
  if n % 64 = 0 then a else (a <<< (n % 64)) ||| (a >>> (64 - n % 64))

/-- θ's column parity `C[x]` (R121). -/
def thetaC (A : Lanes) (x : Fin 5) : Lane := A x 0 ^^^ A x 1 ^^^ A x 2 ^^^ A x 3 ^^^ A x 4

/-- θ's `D[x]`; the column indices are modulo 5 (R121). -/
def thetaD (A : Lanes) (x : Fin 5) : Lane := thetaC A (x + 4) ^^^ rotl64 (thetaC A (x + 1)) 1

/-- R121 θ: every parity is taken from the input. -/
def theta (A : Lanes) : Lanes := fun x y => A x y ^^^ thetaD A x

/-- `A` with lane `(x, y)` replaced. -/
def setLane (A : Lanes) (x y : Fin 5) (v : Lane) : Lanes := fun u w => if u = x ∧ w = y then v else A u w

/-- The lane walk of ρ/π: the position, the lane carried, the array so far (R122). -/
structure Walk where
  x : Fin 5
  y : Fin 5
  current : Lane
  lanes : Lanes

/-- R122, iteration `t`: both new coordinates use the old ones. -/
def walkStep (w : Walk) (t : Nat) : Walk :=
  let x := w.y
  let y := 2 * w.x + 3 * w.y
  { x := x
    y := y
    current := w.lanes x y
    lanes := setLane w.lanes x y (rotl64 w.current ((t + 1) * (t + 2) / 2)) }

/-- R122 ρ and π: the walk from `(1, 0)`, 24 iterations. -/
def rhoPi (A : Lanes) : Lanes := ((List.range 24).foldl walkStep ⟨1, 0, A 1 0, A⟩).lanes

/-- R124 χ: every output lane of a row is computed from the row as it was. -/
def chi (A : Lanes) : Lanes := fun x y => A x y ^^^ (~~~ A (x + 1) y &&& A (x + 2) y)

/-- R125: one step of the round-constant LFSR. -/
def lfsrStep (R : Byte) : Byte := (R <<< 1) ^^^ ((R >>> 7) * 0x71)

/-- R126, iteration `i` of ι: the LFSR advances; its bit 1 decides about bit `2^i - 1` of lane (0,0). -/
def iotaStep (p : Lane × Byte) (i : Nat) : Lane × Byte :=
  let R := lfsrStep p.2
  (if R &&& 0x02 ≠ 0 then p.1 ^^^ (1 <<< ((1 <<< i) - 1)) else p.1, R)

/-- R126 ι: lane (0,0) and the LFSR, 7 steps. -/
def iota (A : Lanes) (R : Byte) : Lanes × Byte :=
  let p := (List.range 7).foldl iotaStep (A 0 0, R)
  (setLane A 0 0 p.1, p.2)

/-- R128: one round, θ then ρ/π then χ then ι. -/
def keccakRound (A : Lanes) (R : Byte) : Lanes × Byte := iota (chi (rhoPi (theta A))) R

/-- The first `n` rounds from LFSR value `R` (R129). -/
def keccakRounds (A : Lanes) (R : Byte) : Nat → Lanes × Byte
  | 0 => (A, R)
  | n + 1 =>
    let p := keccakRounds A R n
    keccakRound p.1 p.2

/-- R129 Keccak-f[1600]: 24 rounds, the LFSR initialised to 1 once. -/
def keccakF (A : Lanes) : Lanes := (keccakRounds A 0x01 Config.rounds).1

/-- R130: Keccak-f[1600] on the byte view. -/
def keccakFBytes (S : StateReg) : StateReg := fromLanes (keccakF (toLanes S))

/-- The LFSR after `n` rounds from `R` (R127): 7 steps a round. -/
def lfsrAfter : Nat → Byte
  | 0 => 0x01
  | n + 1 => (List.range 7).foldl (fun R _ => lfsrStep R) (lfsrAfter n)

end Sys2Proof.Machine
end

