-- ==== Sys2Proof/Machine/Permutation.lean ====
section
/-! DEFINITION. The permutation family: PERMUTE (R136) and the sequencer's engine step (R131 to R134). -/

namespace Sys2Proof.Machine

/-- R134 `complete()`, in the engine step that performs round 23. -/
def Kse.complete (k : Kse) : Except Fault Kse :=
  let k := { k with permcnt := k.permcnt + 1 }
  if k.cont then
    match k.xorByte k.lastIndex 0x80 with
    | .ok k => .ok (k.startPerm false)
    | .error e => .error e
  else .ok { k with busy := false }

/-- One round on S in place (R128, R133): S.lane, LFSR and RND. -/
def Kse.performRound (k : Kse) : Kse :=
  let p := keccakRound (toLanes k.sreg) k.lfsr
  { k with sreg := fromLanes p.1, lfsr := p.2, rnd := k.rnd + 1 }

/-- R133: the engine step. While BUSY = 0 the engine has no step and nothing changes (log 11). -/
def Kse.engineStep (k : Kse) : Except Fault Kse :=
  if k.busy then
    let k := k.performRound
    if k.rnd = 24 then k.complete else .ok k
  else .ok k

/-- R136 PERMUTE: needs no configuration, runs in every phase, is not blocked by ERR. -/
def execPermute (s : State) : Host.Outcome State Fault Refusal :=
  s.onKse (Kse.command fun k => .ok (k.startPerm false))

end Sys2Proof.Machine
end

