-- ==== Sys2Proof/Machine/Sponge.lean ====
section
/-! DEFINITION. The sponge family: ABSORB (R161), PAD (R162), SQUEEZE (R163). -/

namespace Sys2Proof.Machine

/-- R161 behind the gate: the byte is XORed in at POS; a full block starts a permutation. -/
def Kse.absorbByte (imm : Byte) (k : Kse) : Except Fault Kse :=
  match k.xorByte k.pos.toNat imm with
  | .error e => .error e
  | .ok k =>
    if k.pos + 1 = k.rate then .ok ({ k with pos := 0 }.startPerm false)
    else .ok { k with pos := k.pos + 1 }

/-- R162: the suffix's bit 7 and the final padding bit fall into the same byte. -/
def Kse.padCollides (k : Kse) : Bool := k.suffix &&& 0x80 != 0 && k.pos.toNat == k.lastIndex

/-- R162 behind the gate: pad10*1 with the domain suffix at `b = POS`. -/
def Kse.padBlock (k : Kse) : Except Fault Kse :=
  match k.xorByte k.pos.toNat k.suffix with
  | .error e => .error e
  | .ok q =>
    let q := { q with phase := .squeeze, pos := 0, remain := k.outlen }
    if k.padCollides then .ok (q.startPerm true)
    else
      match q.xorByte q.lastIndex 0x80 with
      | .error e => .error e
      | .ok q => .ok (q.startPerm false)

/-- R163 behind the gate: the byte at POS goes to DOUT; the last byte ends the output, a block's last byte starts a
permutation. -/
def Kse.squeezeByte (k : Kse) : Except Fault Kse :=
  match k.readByte k.pos.toNat with
  | .error e => .error e
  | .ok b =>
    let q := { k with dout := b, pos := k.pos + 1, remain := k.remain - 1 }
    if q.remain = 0 then .ok { q with phase := .done }
    else if q.pos = q.rate then .ok ({ q with pos := 0 }.startPerm false)
    else .ok q

/-- R161 ABSORB. -/
def execAbsorb (imm : Byte) (s : State) : Host.Outcome State Fault Refusal :=
  s.onKse (Kse.command (Kse.sponge .absorb (Kse.absorbByte imm)))

/-- R162 PAD. -/
def execPad (s : State) : Host.Outcome State Fault Refusal :=
  s.onKse (Kse.command (Kse.sponge .absorb Kse.padBlock))

/-- R163 SQUEEZE. -/
def execSqueeze (s : State) : Host.Outcome State Fault Refusal :=
  s.onKse (Kse.command (Kse.sponge .squeeze Kse.squeezeByte))

end Sys2Proof.Machine
end

