-- ==== Sys2Proof/Machine/Dispatch.lean ====
section
/-! DEFINITION. The dispatch of R105: one arm per command, one direct call of its meaning. -/

namespace Sys2Proof.Machine

def exec (i : Instr) (s : State) : Host.Outcome State Fault Refusal :=
  match i with
  | .nop => Sys2Proof.Machine.execNop s
  | .init => Sys2Proof.Machine.execInit s
  | .selvar imm => Sys2Proof.Machine.execSelvar imm s
  | .setcfg => Sys2Proof.Machine.execSetcfg s
  | .absorb imm => Sys2Proof.Machine.execAbsorb imm s
  | .pad => Sys2Proof.Machine.execPad s
  | .squeeze => Sys2Proof.Machine.execSqueeze s
  | .permute => Sys2Proof.Machine.execPermute s
  | .clrerr => Sys2Proof.Machine.execClrerr s

end Sys2Proof.Machine
end

