-- ==== Sys2Proof/Machine/Flags.lean ====
section
/-! DEFINITION. The status flags and the images of the control registers (R45 to R59). -/

namespace Sys2Proof.Machine

/-- The 2-bit code of PHASE (R33). -/
def Phase.code : Phase → BitVec 2
  | .absorb => 0
  | .squeeze => 1
  | .done => 2

/-- The 4-bit code of ERR (R220). -/
def ErrCode.code : ErrCode → BitVec 4
  | .noError => 0
  | .illegal => 1
  | .busy => 2
  | .phase => 3
  | .nocfg => 4
  | .config => 5

/-- The control registers, offsets 0x100 to 0x12C (R46). -/
inductive Reg where
  | cmd
  | status
  | dout
  | remain
  | cfgRate
  | cfgCap
  | cfgSuffix
  | cfgOutlen
  | actcfg
  | actoutlen
  | seqdbg
  | permcnt
  deriving DecidableEq, Repr

/-- STATUS (R49): BUSY bit 0, CONFIGURED bit 1, PHASE 3:2, ERR 7:4, POS 15:8, 31:16 zero. -/
def Kse.statusWord (k : Kse) : Word :=
  (k.pos.setWidth 32 <<< 8) ||| (k.err.code.setWidth 32 <<< 4) ||| (k.phase.code.setWidth 32 <<< 2) |||
    ((BitVec.ofBool k.configured).setWidth 32 <<< 1) ||| (BitVec.ofBool k.busy).setWidth 32

/-- ACTCFG (R56): RATE 7:0, CAP 15:8, SUFFIX 23:16, 31:24 zero. -/
def Kse.actcfgWord (k : Kse) : Word :=
  (k.suffix.setWidth 32 <<< 16) ||| (k.cap.setWidth 32 <<< 8) ||| k.rate.setWidth 32

/-- SEQDBG (R58), the fields as a read while BUSY = 0 returns them: RND 4:0, LFSR 15:8, CONT 16, the rest zero. -/
def Kse.seqdbgWord (k : Kse) : Word :=
  ((BitVec.ofBool k.cont).setWidth 32 <<< 16) ||| (k.lfsr.setWidth 32 <<< 8) ||| k.rnd.setWidth 32

/-- The current fields of a control register (R48 to R59); CMD reads as 0. -/
def Kse.regWord (k : Kse) : Reg → Word
  | .cmd => 0
  | .status => k.statusWord
  | .dout => k.dout.setWidth 32
  | .remain => k.remain.setWidth 32
  | .cfgRate => k.cfgRate.setWidth 32
  | .cfgCap => k.cfgCap.setWidth 32
  | .cfgSuffix => k.cfgSuffix.setWidth 32
  | .cfgOutlen => k.cfgOutlen.setWidth 32
  | .actcfg => k.actcfgWord
  | .actoutlen => k.outlen.setWidth 32
  | .seqdbg => k.seqdbgWord
  | .permcnt => k.permcnt

end Sys2Proof.Machine
end

