-- ==== Sys2Proof/Machine/Bus.lean ====
section
/-! DEFINITION. The bus slave port (20_memory.md), the command write (R105), and the turns of the three movers (R2). -/

namespace Sys2Proof.Machine

/-- The number of bytes of an access. -/
def Size.bytes : Size → Nat
  | .b1 => 1
  | .b2 => 2
  | .b4 => 4
  | .b8 => 8

/-- The low `8*n` bits of a transaction's data, zero-extended (R75, log 8). -/
def Size.low (n : Size) (v : Lane) : Lane := (v.extractLsb' 0 (8 * n.bytes)).setWidth 64

/-- Where an access goes (R72). -/
inductive Region where
  | state
  | control (r : Reg)
  | reserved
  deriving DecidableEq, Repr

/-- The control register at `off`, `off` in 0x100 to 0x12F, rounded down to a multiple of 4 (R46, R72). -/
def regAt (off : Offset) : Reg :=
  match (off.toNat - 0x100) / 4 with
  | 0 => .cmd
  | 1 => .status
  | 2 => .dout
  | 3 => .remain
  | 4 => .cfgRate
  | 5 => .cfgCap
  | 6 => .cfgSuffix
  | 7 => .cfgOutlen
  | 8 => .actcfg
  | 9 => .actoutlen
  | 10 => .seqdbg
  | _ => .permcnt

/-- R72 region decode. -/
def region (off : Offset) (n : Size) : Region :=
  if off.toNat + n.bytes ≤ 0x0C8 then .state
  else if 0x100 ≤ off.toNat ∧ off.toNat < 0x130 then .control (regAt off)
  else .reserved

/-- R73 legality: natural alignment, and 4 bytes wide in CONTROL. -/
def legalAccess (off : Offset) (n : Size) : Bool :=
  off.toNat % n.bytes == 0 &&
    match region off n with
    | .control _ => n == .b4
    | _ => true

/-- R75: the first `n` bytes at `off`, little-endian. -/
def readBytes (S : StateReg) (off : Nat) : Nat → Lane
  | 0 => 0
  | n + 1 => readBytes S off n ||| ((byteOf S (off + n)).setWidth 64 <<< (8 * n))

/-- R75: the low `n` bytes of `v` to `off` and up, little-endian. -/
def writeBytes (S : StateReg) (off : Nat) (v : Lane) : Nat → StateReg
  | 0 => S
  | n + 1 => setByte (writeBytes S off v n) (off + n) (v.extractLsb' (8 * n) 8)

/-- The data of a legal read (R77, R79, R81): STATE and SEQDBG are unspecified while BUSY = 1. -/
def State.readData (off : Offset) (n : Size) (s : State) : Lane × State :=
  match region off n with
  | .state =>
    if s.kse.busy then (n.low s.takeDraw.1, s.takeDraw.2)
    else (readBytes s.kse.sreg off.toNat n.bytes, s)
  | .control r =>
    if r = .seqdbg ∧ s.kse.busy then (n.low s.takeDraw.1, s.takeDraw.2)
    else ((s.kse.regWord r).setWidth 64, s)
  | .reserved => (0, s)

/-- R78: a STATE write; while BUSY = 1 it is dropped and BUSY is recorded. -/
def Kse.writeState (off : Offset) (n : Size) (v : Lane) (k : Kse) : Kse :=
  if k.busy then k.recordError .busy
  else { k with sreg := writeBytes k.sreg off.toNat v n.bytes }

/-- R80: a CONTROL write other than CMD. Read-only registers ignore it; CFG_* take it whatever BUSY is. -/
def Kse.writeReg (r : Reg) (v : Word) (k : Kse) : Kse :=
  match r with
  | .cfgRate => { k with cfgRate := v.extractLsb' 0 8 }
  | .cfgCap => { k with cfgCap := v.extractLsb' 0 8 }
  | .cfgSuffix => { k with cfgSuffix := v.extractLsb' 0 8 }
  | .cfgOutlen => { k with cfgOutlen := v.extractLsb' 0 16 }
  | _ => k

/-- R105, R222: a CMD write. Each command's meaning checks BUSY first (log 10), and an illegal word records BUSY while
BUSY = 1, else ILLEGAL. -/
def executeCommand (v : Word) (s : State) : Host.Outcome State Fault Refusal :=
  match decodeWord v with
  | .ok i => exec i s
  | .error _ => s.onKse (Kse.command fun k => .ok (k.recordError .illegal))

/-- A legal write (R78, R80, R81); its response is OK. -/
def State.writeAccess (off : Offset) (n : Size) (v : Lane) (s : State) : Host.Outcome State Fault Refusal :=
  let s := { s with response := some .writeOk }
  match region off n with
  | .state => .next { s with kse := s.kse.writeState off n v }
  | .control .cmd => executeCommand (v.setWidth 32) s
  | .control r => .next { s with kse := s.kse.writeReg r (v.setWidth 32) }
  | .reserved => .next s

/-- R74, the host step: one bus transaction, atomic. An illegal access gets the ERROR response, changes no KSE state,
and its read data is unspecified (R82). -/
def hostStep (a : Access) (s : State) : Host.Outcome State Fault Refusal :=
  match a with
  | .read off n =>
    if legalAccess off n then
      .next { (s.readData off n).2 with response := some (.readOk (s.readData off n).1) }
    else .next { s.takeDraw.2 with response := some (.readError (n.low s.takeDraw.1)) }
  | .write off n v =>
    if legalAccess off n then s.writeAccess off n v
    else .next { s with response := some .writeError }

/-- Offset of CMD (R48). -/
def cmdOffset : Offset := 0x100

/-- Offset of STATUS (R49). -/
def statusOffset : Offset := 0x104

/-- The read data of the last response, 0 where it carried none. -/
def State.lastData (s : State) : Lane :=
  match s.response with
  | some (.readOk d) => d
  | some (.readError d) => d
  | _ => 0

/-- R109 `WAIT`, one round of the host's loop: `RD32 STATUS`, and again while bit 0 of the result is 1 (log 13). -/
def pollStatus (rest : List HostOp) (s : State) : Host.Outcome State Fault Refusal :=
  match hostStep (.read statusOffset .b4) s with
  | .next t => .next { t with program := if t.lastData.getLsbD 0 then .wait :: rest else rest }
  | .fault f => .fault f
  | .refused r => .refused r

/-- R109 `RDDIGEST`: `RD8 k` for k in 0..OUTLEN. DESIGN CHOICE (log 14): R109 calls `RDDIGEST` valid only when
OUTLEN <= RATE; where OUTLEN is greater these are still OUTLEN reads, at offsets cut to 12 bits. -/
def digestReads (outlen : Half) : List HostOp :=
  (List.range outlen.toNat).map fun k => .access (.read (BitVec.ofNat 12 k) .b1)

/-- R109 `RDDIGEST` when the host comes to its reads: their number is the active OUTLEN (R29). DESIGN CHOICE (log 13):
the host takes OUTLEN once, in a turn of its own that makes no access. -/
def State.beginDigest (rest : List HostOp) (s : State) : State :=
  { s with program := digestReads s.kse.outlen ++ rest }

/-- The host's turn: the head of its program. With nothing left to do, nothing changes (R251, log 11). -/
def State.hostTurn (s : State) : Host.Outcome State Fault Refusal :=
  match s.program with
  | [] => .next s
  | .access a :: rest => hostStep a { s with program := rest }
  | .wait :: rest => pollStatus rest { s with program := rest }
  | .digest :: rest => .next (s.beginDigest rest)

/-- What a turn does (R2, R133, R250). Reset puts every KSE field at its reset value, also while BUSY = 1 (log 6). -/
def State.takeTurn (t : Turn) (s : State) : Host.Outcome State Fault Refusal :=
  match t with
  | .host => s.hostTurn
  | .engine => s.onKse Kse.engineStep
  | .reset => .next { s with kse := Kse.reset }

/-- Whose turn is next: as `sched` says; when it is empty, the engine's while BUSY = 1, else the host's (R2, log 2). -/
def State.nextTurn (s : State) : Turn :=
  match s.sched with
  | t :: _ => t
  | [] => if s.kse.busy then .engine else .host

/-- The state in which the next turn is taken: the turn has left the schedule. -/
def State.afterTurn (s : State) : State := { s with sched := s.sched.tail }

/-- One step of the machine. -/
def State.advance (s : State) : Host.Outcome State Fault Refusal := s.afterTurn.takeTurn s.nextTurn

/-- The host's next access is the write of the command word `v` to CMD, and the host moves next. -/
def State.issueCommand (v : Word) (s : State) : State :=
  { s with program := .access (.write cmdOffset .b4 (v.setWidth 64)) :: s.program, sched := .host :: s.sched }

end Sys2Proof.Machine
end

