-- ==== Sys2Proof/Machine/Step.lean ====
section
/-! DEFINITION. The machine's step. -/

namespace Sys2Proof.Machine

/-- One step: the next turn of the host, the engine or the reset input (R2). -/
def step (s : State) : Host.Outcome State Fault Refusal := s.advance

/-- `s` with the command word `w` of a row of `nbits` bits as the host's next access, the host moving next, so that
`step` runs exactly it (log 1). -/
def State.withFetchWord (s : State) (nbits w : Nat) : State := s.issueCommand (tableWord nbits w)

end Sys2Proof.Machine
end

