-- ==== Sys2Proof/Machine/Reference.lean ====
section
/-! DEFINITION. The source's absorption, padding and squeezing as functions (R165 to R167), and a host that waits for
BUSY = 0 after each command. Statements compare the two; the machine uses none of this. -/

namespace Sys2Proof.Machine

/-- The bytes `m` XORed into the flat view from byte `i` up (§4.4 as R161 quotes it). -/
def xorBytes (S : StateReg) (i : Nat) : List Byte → StateReg
  | [] => S
  | b :: bs => xorBytes (setByte S i (byteOf S i ^^^ b)) (i + 1) bs

/-- R165, C3: the source's absorption of `m` with `n` full chunks of `rate` bytes: each is XORed in and permuted, the
rest is XORed in; the result is the state and the trailing block size. -/
def sourceAbsorb (rate : Nat) : Nat → List Byte → StateReg → StateReg × Nat
  | 0, m, S => (xorBytes S 0 m, m.length)
  | n + 1, m, S => sourceAbsorb rate n (m.drop rate) (keccakFBytes (xorBytes S 0 (m.take rate)))

/-- R162, R166: the source's padding with trailing block size `b`. -/
def sourcePad (rate : Nat) (suffix : Byte) (b : Nat) (S : StateReg) : StateReg :=
  let S := setByte S b (byteOf S b ^^^ suffix)
  let S := if suffix &&& 0x80 ≠ 0 ∧ b = rate - 1 then keccakFBytes S else S
  keccakFBytes (setByte S (rate - 1) (byteOf S (rate - 1) ^^^ 0x80))

/-- R163, R167: the source's squeezing of `remaining` bytes, at most `fuel` blocks. -/
def sourceSqueeze (rate : Nat) : Nat → Nat → StateReg → List Byte
  | 0, _, _ => []
  | fuel + 1, remaining, S =>
    (List.range (min remaining rate)).map (byteOf S) ++
      if rate < remaining then sourceSqueeze rate fuel (remaining - rate) (keccakFBytes S) else []

/-- R168: the source's `hash(variant, input)`: absorption of `m` into the zero state, padding, squeezing. -/
def sourceHash (rate : Nat) (suffix : Byte) (outlen : Nat) (m : List Byte) : List Byte :=
  let p := sourceAbsorb rate (m.length / rate) m 0
  sourceSqueeze rate outlen outlen (sourcePad rate suffix p.2 p.1)

/-- `n` engine steps in a row (R133); where BUSY = 0 they change nothing. -/
def Kse.engineRun : Nat → Kse → Except Fault Kse
  | 0, k => .ok k
  | n + 1, k =>
    match k.engineStep with
    | .ok q => q.engineRun n
    | .error e => .error e

/-- The command `i`, then a wait for BUSY = 0: 48 engine steps end every command's permutations (R261). -/
def commandThenWait (i : Instr) (s : State) : Host.Outcome State Fault Refusal :=
  match exec i s with
  | .next t => t.onKse (Kse.engineRun 48)
  | .fault f => .fault f
  | .refused r => .refused r

/-- `ABSORB` of each byte of `m`, each followed by a wait (R165). -/
def absorbAll : List Byte → State → Host.Outcome State Fault Refusal
  | [], s => .next s
  | b :: bs, s =>
    match commandThenWait (.absorb b) s with
    | .next t => absorbAll bs t
    | .fault f => .fault f
    | .refused r => .refused r

/-- `n` SQUEEZE commands, each followed by a wait: the bytes DOUT shows, and the state at the end (R167). -/
def squeezeAll : Nat → State → Option (List Byte × State)
  | 0, s => some ([], s)
  | n + 1, s =>
    match commandThenWait .squeeze s with
    | .next t => (squeezeAll n t).map fun p => (t.kse.dout :: p.1, p.2)
    | _ => none

end Sys2Proof.Machine
end

