-- ==== Sys2Proof/Safety.lean ====
section
/-! DEFINITION. What holds in every run (R30, R34, R37, R38 to R41) and what a safe step is. -/

namespace Sys2Proof.Machine

/-- R30, the configuration invariant. -/
abbrev Kse.ConfigInv (k : Kse) : Prop :=
  (k.configured = true →
    1 ≤ k.rate.toNat ∧ k.rate.toNat ≤ 199 ∧ k.rate.toNat + k.cap.toNat = 200 ∧ 1 ≤ k.outlen.toNat) ∧
  (k.configured = false → k.rate = 0 ∧ k.cap = 0 ∧ k.suffix = 0 ∧ k.outlen = 0)

/-- R37, the controller invariants. -/
abbrev Kse.ControllerInv (k : Kse) : Prop :=
  (k.configured = false → k.phase = .absorb ∧ k.pos = 0 ∧ k.remain = 0) ∧
  (k.phase = .absorb → k.remain = 0) ∧
  (k.phase = .squeeze → 1 ≤ k.remain.toNat ∧ k.remain.toNat ≤ k.outlen.toNat) ∧
  (k.phase = .done → k.remain = 0)

/-- R34, the range of POS once a configuration is loaded. -/
abbrev Kse.PosInv (k : Kse) : Prop :=
  (k.configured = true → k.phase ≠ .done → k.pos.toNat < k.rate.toNat) ∧
  (k.phase = .done → 1 ≤ k.pos.toNat ∧ k.pos.toNat ≤ k.rate.toNat)

/-- R38 to R41: while BUSY = 1, RND rounds have been performed and LFSR is what they leave; while BUSY = 0 the
sequencer is as reset or as a completed permutation leaves it; CONT is 1 only in a collision-case PAD. -/
abbrev Kse.SequencerInv (k : Kse) : Prop :=
  (k.busy = true → k.rnd.toNat < 24 ∧ k.lfsr = lfsrAfter k.rnd.toNat) ∧
  (k.busy = false → k.cont = false ∧ ((k.rnd = 0 ∧ k.lfsr = 0x01) ∨ (k.rnd = 24 ∧ k.lfsr = 0x8E))) ∧
  (k.cont = true → k.phase = .squeeze ∧ k.suffix &&& 0x80 ≠ 0)

/-- What holds at reset and after every step. -/
structure Kse.Inv (k : Kse) : Prop where
  config : k.ConfigInv
  controller : k.ControllerInv
  position : k.PosInv
  sequencer : k.SequencerInv

/-- The step went on: neither a fault nor a refusal. -/
def Answered (o : Host.Outcome State Fault Refusal) : Prop := ∃ t, o = .next t

/-- The sponge gate for phase `p` is open and BUSY = 0 (R160): a sponge command executes. -/
structure Kse.Open (p : Phase) (k : Kse) : Prop where
  idle : k.busy = false
  configured : k.configured = true
  phase : k.phase = p
  noError : k.err = .noError

/-- The next step is the host's write of the word `v` to CMD; `rest` is what the host does afterwards. -/
def State.WritesCommand (s : State) (v : Word) (rest : List HostOp) : Prop :=
  s.nextTurn = .host ∧ ∃ d : Lane, s.program = .access (.write cmdOffset .b4 d) :: rest ∧ d.setWidth 32 = v

/-- The state in which that command is executed: the turn and the access are taken, and the write is answered OK. -/
def State.afterCommandWrite (s : State) (rest : List HostOp) : State :=
  { s.afterTurn with program := rest, response := some .writeOk }

end Sys2Proof.Machine
end

