-- ==== Sys2Proof/Certificates/Slice0/Obligations.lean ====
section
/-! DEFINITION. The statements for the provers, from the numbered rules of spec/. `Kse.Inv`, `Kse.Open`,
`State.WritesCommand` and `State.afterCommandWrite` are in Safety.lean; the source's functions are in
Machine/Reference.lean. -/

open Sys2Proof Sys2Proof.Machine

/-! ### Encoding (30_encoding.md) -/

/-- R101, R103: no operand is lost between an instruction and its command word. -/
def Obligations.DecodeOfEncode : Prop :=
  ∀ i : Instr, i.wellFormed = true → decodeWord (encode i) = .ok i

/-- R101, R103: a word that decodes is the encoding of what it decodes to. -/
def Obligations.EncodeOfDecode : Prop :=
  ∀ (v : Word) (i : Instr), decodeWord v = .ok i → encode i = v ∧ i.wellFormed = true

/-- R104: the words that decode are exactly those of `legal(v)`. -/
def Obligations.DecodableWordsAreTheLegalOnes : Prop :=
  ∀ v : Word, (∃ i, decodeWord v = .ok i) ↔
    v.extractLsb' 16 16 = 0 ∧ (v.extractLsb' 0 8).toNat ≤ 0x08 ∧
    (v.extractLsb' 0 8 = 0x02 ∨ v.extractLsb' 0 8 = 0x04 ∨ v.extractLsb' 8 8 = 0) ∧
    (v.extractLsb' 0 8 ≠ 0x02 ∨ (v.extractLsb' 8 8).toNat ≤ 3)

/-- R111: the words the spec writes out, and its illegal ones. -/
def Obligations.WrittenOutWordsDecode : Prop :=
  (∀ p ∈ ([(0x00000000, .nop), (0x00000001, .init), (0x00000002, .selvar 0), (0x00000102, .selvar 1),
      (0x00000202, .selvar 2), (0x00000302, .selvar 3), (0x00000003, .setcfg), (0x00006104, .absorb 0x61),
      (0x0000FF04, .absorb 0xFF), (0x00000005, .pad), (0x00000006, .squeeze), (0x00000007, .permute),
      (0x00000008, .clrerr)] : List (Word × Instr)), decodeWord p.1 = .ok p.2 ∧ encode p.2 = p.1) ∧
  (∀ v ∈ ([0x00000009, 0x000000FF, 0x00000402, 0x00000105, 0x00010004] : List Word),
    ∃ e, decodeWord v = .error e)

/-- The opcode table's masks and patterns give each word the command the decoder gives it. -/
def Obligations.DecoderAgreesWithOpcodeTable : Prop :=
  (∀ v i, decodeWord v = .ok i → ∃ r ∈ opcodeTable, r.matchesWord v = true ∧ r.mnemonic = i.mnemonic) ∧
  (∀ v, ∀ r ∈ opcodeTable, r.matchesWord v = true → ∃ i, decodeWord v = .ok i ∧ i.mnemonic = r.mnemonic)

/-! ### The step -/

/-- R9, R105: the host's write of a word that decodes to `i` is one step, and it is `exec i`; around it the step takes
the turn and the access, and answers the write OK. -/
def Obligations.StepRunsTheDecodedCommand : Prop :=
  (∀ (s : State) (v : Word) (rest : List HostOp) (i : Instr), s.WritesCommand v rest → decodeWord v = .ok i →
    step s = exec i (s.afterCommandWrite rest)) ∧
  (∀ (s : State) (nbits w : Nat) (i : Instr), decodeTableWord nbits w = some i →
    step (s.withFetchWord nbits w) = exec i { s with response := some .writeOk })

/-- R2, R133, R250, R109: what a step does in each turn. The model's choices: who moves when the schedule is empty
(log 2), that a reset keeps the host's program (log 6), what a host with nothing to do does (log 11), that RDDIGEST's
reads are put into the program, as many as the active OUTLEN, in one host turn before them (log 13), and that this is so
also where OUTLEN > RATE, which R109 does not call valid, at offsets cut to 12 bits (log 14); where OUTLEN <= RATE the
reads are R109's `RD8 k` for k in 0..OUTLEN. -/
def Obligations.StepTakesTheNextTurn : Prop :=
  ∀ s : State,
    (s.sched = [] → s.nextTurn = if s.kse.busy then .engine else .host) ∧
    (∀ m rest, s.sched = m :: rest → s.nextTurn = m) ∧
    (s.nextTurn = .engine → step s = s.afterTurn.onKse Kse.engineStep) ∧
    (s.nextTurn = .reset → step s = .next { s with sched := s.sched.tail, kse := Kse.reset }) ∧
    (s.nextTurn = .host → s.program = [] → step s = .next { s with sched := s.sched.tail }) ∧
    (∀ a rest, s.nextTurn = .host → s.program = .access a :: rest →
      step s = hostStep a { s with sched := s.sched.tail, program := rest }) ∧
    (∀ rest, s.nextTurn = .host → s.program = .digest :: rest →
      step s = .next { s with
        sched := s.sched.tail
        program := ((List.range s.kse.outlen.toNat).map fun k => .access (.read (BitVec.ofNat 12 k) .b1)) ++ rest })

/-! ### Checks and errors (60_exceptions.md) -/

/-- R106: an illegal word records ILLEGAL and does nothing else; while BUSY = 1 it records BUSY. -/
def Obligations.IllegalWordIsRecorded : Prop :=
  ∀ (v : Word) (s : State),
    (v.extractLsb' 16 16 ≠ 0 ∨ 0x08 < (v.extractLsb' 0 8).toNat ∨
      (v.extractLsb' 8 8 ≠ 0 ∧ v.extractLsb' 0 8 ≠ 0x02 ∧ v.extractLsb' 0 8 ≠ 0x04) ∨
      (v.extractLsb' 0 8 = 0x02 ∧ 3 < (v.extractLsb' 8 8).toNat)) →
    executeCommand v s =
      .next { s with kse := s.kse.recordError (if s.kse.busy then .busy else .illegal) }

/-- R105, R222 check 1, R256: while BUSY = 1 no command is executed, whatever the word; BUSY is recorded. -/
def Obligations.BusyRejectsEveryCommand : Prop :=
  ∀ s : State, s.kse.busy = true →
    (∀ i, exec i s = .next { s with kse := s.kse.recordError .busy }) ∧
    (∀ v, executeCommand v s = .next { s with kse := s.kse.recordError .busy })

/-- R221: the first error is kept, and nothing but ERR changes. -/
def Obligations.FirstErrorIsKept : Prop :=
  ∀ (k : Kse) (c : ErrCode),
    (k.err = .noError → k.recordError c = { k with err := c }) ∧ (k.err ≠ .noError → k.recordError c = k)

/-- R160, R222 checks 3 to 5, R224: what stops ABSORB, PAD and SQUEEZE, in this order. -/
def Obligations.SpongeGateOrder : Prop :=
  ∀ (s : State) (i : Instr) (p : Phase),
    ((∃ imm, i = .absorb imm) ∧ p = .absorb ∨ i = .pad ∧ p = .absorb ∨ i = .squeeze ∧ p = .squeeze) →
    s.kse.busy = false →
    (s.kse.configured = false → exec i s = .next { s with kse := s.kse.recordError .nocfg }) ∧
    (s.kse.configured = true → s.kse.phase ≠ p → exec i s = .next { s with kse := s.kse.recordError .phase }) ∧
    (s.kse.configured = true → s.kse.phase = p → s.kse.err ≠ .noError → exec i s = .next s)

/-! ### What each command does -/

/-- R190: NOP completes and changes nothing. -/
def Obligations.NopCompletes : Prop :=
  ∀ s : State, s.kse.busy = false → exec .nop s = .next s

/-- R191: INIT completes; it keeps the configuration, CFG_* and the sequencer. -/
def Obligations.InitCompletes : Prop :=
  ∀ s : State, s.kse.busy = false →
    exec .init s = .next { s with
      kse := { s.kse with
        sreg := 0, phase := .absorb, pos := 0, remain := 0, dout := 0, err := .noError, permcnt := 0 } }

/-- R192, R31: SELVAR completes with the selector's row, as (selector, OUTLEN, RATE, CAP); a selector above 3, which no
legal word carries, records ILLEGAL (log 9). -/
def Obligations.SelvarCompletes : Prop :=
  ∀ s : State, s.kse.busy = false →
    (∀ p ∈ ([(0, 28, 144, 56), (1, 32, 136, 64), (2, 48, 104, 96), (3, 64, 72, 128)] : List (Byte × Half × Byte × Byte)),
      exec (.selvar p.1) s = .next { s with
        kse := { s.kse with
          configured := true, outlen := p.2.1, rate := p.2.2.1, cap := p.2.2.2, suffix := 0x06
          sreg := 0, phase := .absorb, pos := 0, remain := 0, dout := 0, err := .noError, permcnt := 0 } }) ∧
    ∀ imm : Byte, 3 < imm.toNat → exec (.selvar imm) s = .next { s with kse := s.kse.recordError .illegal }

/-- R193, R194: SETCFG completes: it loads a valid staged configuration, else unconfigures and records CONFIG. -/
def Obligations.SetcfgCompletes : Prop :=
  ∀ s : State, s.kse.busy = false →
    exec .setcfg s = .next { s with
      kse :=
        if 1 ≤ s.kse.cfgRate.toNat ∧ s.kse.cfgRate.toNat ≤ 199 ∧
            s.kse.cfgRate.toNat + s.kse.cfgCap.toNat = 200 ∧ 1 ≤ s.kse.cfgOutlen.toNat then
          { s.kse with
            configured := true, rate := s.kse.cfgRate, cap := s.kse.cfgCap, suffix := s.kse.cfgSuffix
            outlen := s.kse.cfgOutlen
            sreg := 0, phase := .absorb, pos := 0, remain := 0, dout := 0, err := .noError, permcnt := 0 }
        else
          { s.kse with
            configured := false, rate := 0, cap := 0, suffix := 0, outlen := 0
            phase := .absorb, pos := 0, remain := 0
            err := if s.kse.err = .noError then .config else s.kse.err } }

/-- R195: CLRERR completes; ERR becomes 0 and nothing else changes. -/
def Obligations.ClrerrCompletes : Prop :=
  ∀ s : State, s.kse.busy = false → exec .clrerr s = .next { s with kse := { s.kse with err := .noError } }

/-- R136, R132: PERMUTE completes in every phase, configured or not, whatever ERR is: a permutation is started. -/
def Obligations.PermuteCompletes : Prop :=
  ∀ s : State, s.kse.busy = false →
    exec .permute s = .next { s with kse := { s.kse with busy := true, cont := false, rnd := 0, lfsr := 0x01 } }

/-- R161: ABSORB completes: the byte at POS takes the operand, every other byte stays; a full block starts a
permutation. -/
def Obligations.AbsorbCompletes : Prop :=
  ∀ (s : State) (imm : Byte), s.kse.Open .absorb → s.kse.pos.toNat < 200 →
    ∃ t, exec (.absorb imm) s = .next t ∧
      (∀ j < 200, byteOf t.kse.sreg j = if j = s.kse.pos.toNat then byteOf s.kse.sreg j ^^^ imm else byteOf s.kse.sreg j) ∧
      t = { s with
        kse :=
          if s.kse.pos + 1 = s.kse.rate then
            { s.kse with sreg := t.kse.sreg, pos := 0, busy := true, cont := false, rnd := 0, lfsr := 0x01 }
          else { s.kse with sreg := t.kse.sreg, pos := s.kse.pos + 1 } }

/-- R162: PAD completes: SUFFIX into byte `b = POS`, then 0x80 into byte RATE-1 and one permutation; in the collision
case the 0x80 is left to the engine's completion (CONT = 1). -/
def Obligations.PadCompletes : Prop :=
  ∀ (s : State) (collides : Bool), s.kse.Open .absorb → s.kse.pos.toNat < 200 →
    1 ≤ s.kse.rate.toNat → s.kse.rate.toNat ≤ 199 →
    (collides = true ↔ s.kse.suffix &&& 0x80 ≠ 0 ∧ s.kse.pos.toNat = s.kse.rate.toNat - 1) →
    ∃ t, exec .pad s = .next t ∧
      (∀ j < 200, byteOf t.kse.sreg j =
        byteOf s.kse.sreg j ^^^ (if j = s.kse.pos.toNat then s.kse.suffix else 0) ^^^
          (if j = s.kse.rate.toNat - 1 ∧ collides = false then 0x80 else 0)) ∧
      t = { s with
        kse := { s.kse with
          sreg := t.kse.sreg, phase := .squeeze, pos := 0, remain := s.kse.outlen
          busy := true, cont := collides, rnd := 0, lfsr := 0x01 } }

/-- R163: SQUEEZE completes: DOUT takes the byte at POS; the last byte ends the output; a block's last byte starts a
permutation. -/
def Obligations.SqueezeCompletes : Prop :=
  ∀ s : State, s.kse.Open .squeeze → s.kse.pos.toNat < 200 →
    exec .squeeze s = .next { s with
      kse :=
        if s.kse.remain - 1 = 0 then
          { s.kse with
            dout := byteOf s.kse.sreg s.kse.pos.toNat, pos := s.kse.pos + 1, remain := s.kse.remain - 1
            phase := .done }
        else if s.kse.pos + 1 = s.kse.rate then
          { s.kse with
            dout := byteOf s.kse.sreg s.kse.pos.toNat, pos := 0, remain := s.kse.remain - 1
            busy := true, cont := false, rnd := 0, lfsr := 0x01 }
        else
          { s.kse with
            dout := byteOf s.kse.sreg s.kse.pos.toNat, pos := s.kse.pos + 1, remain := s.kse.remain - 1 } }

/-! ### What each command leaves unchanged -/

/-- The frame of NOP, CLRERR, INIT, SELVAR and SETCFG, on every path: the fields not named keep their values, the
whole of S among them for NOP and CLRERR. -/
def Obligations.ControlCommandFrame : Prop :=
  ∀ s t : State,
    (exec .nop s = .next t ∨ exec .clrerr s = .next t → t = { s with kse := { s.kse with err := t.kse.err } }) ∧
    (exec .init s = .next t →
      t = { s with
        kse := { s.kse with
          sreg := t.kse.sreg, phase := t.kse.phase, pos := t.kse.pos, remain := t.kse.remain, dout := t.kse.dout
          err := t.kse.err, permcnt := t.kse.permcnt } }) ∧
    (∀ imm, exec (.selvar imm) s = .next t ∨ exec .setcfg s = .next t →
      t = { s with
        kse := { s.kse with
          configured := t.kse.configured, rate := t.kse.rate, cap := t.kse.cap, suffix := t.kse.suffix
          outlen := t.kse.outlen, sreg := t.kse.sreg, phase := t.kse.phase, pos := t.kse.pos
          remain := t.kse.remain, dout := t.kse.dout, err := t.kse.err, permcnt := t.kse.permcnt } })

/-- The frame of ABSORB, PAD, SQUEEZE and PERMUTE, on every path: the fields not named keep their values, and so does
every byte of S but the one at POS (ABSORB) or those at POS and RATE-1 (PAD). -/
def Obligations.SpongeAndPermuteFrame : Prop :=
  ∀ s t : State,
    (∀ imm, exec (.absorb imm) s = .next t →
      t = { s with
        kse := { s.kse with
          sreg := t.kse.sreg, pos := t.kse.pos, err := t.kse.err
          busy := t.kse.busy, cont := t.kse.cont, rnd := t.kse.rnd, lfsr := t.kse.lfsr } } ∧
      ∀ j < 200, j ≠ s.kse.pos.toNat → byteOf t.kse.sreg j = byteOf s.kse.sreg j) ∧
    (exec .pad s = .next t →
      t = { s with
        kse := { s.kse with
          sreg := t.kse.sreg, phase := t.kse.phase, pos := t.kse.pos, remain := t.kse.remain, err := t.kse.err
          busy := t.kse.busy, cont := t.kse.cont, rnd := t.kse.rnd, lfsr := t.kse.lfsr } } ∧
      ∀ j < 200, j ≠ s.kse.pos.toNat → j ≠ s.kse.lastIndex → byteOf t.kse.sreg j = byteOf s.kse.sreg j) ∧
    (exec .squeeze s = .next t →
      t = { s with
        kse := { s.kse with
          phase := t.kse.phase, pos := t.kse.pos, remain := t.kse.remain, dout := t.kse.dout, err := t.kse.err
          busy := t.kse.busy, cont := t.kse.cont, rnd := t.kse.rnd, lfsr := t.kse.lfsr } }) ∧
    (exec .permute s = .next t →
      t = { s with
        kse := { s.kse with
          err := t.kse.err
          busy := t.kse.busy, cont := t.kse.cont, rnd := t.kse.rnd, lfsr := t.kse.lfsr } })

/-- R161, R163 and the glossary's "untouched by I/O": ABSORB, PAD and SQUEEZE leave the capacity bytes alone. -/
def Obligations.CapacityIsUntouched : Prop :=
  ∀ (s t : State) (i : Instr), s.kse.Inv →
    ((∃ imm, i = .absorb imm) ∨ i = .pad ∨ i = .squeeze) → exec i s = .next t →
    ∀ j < 200, s.kse.rate.toNat ≤ j → byteOf t.kse.sreg j = byteOf s.kse.sreg j

/-! ### The permutation (40_permutation.md) -/

/-- R120: rotl64 moves bit `i` to bit `(i + n) mod 64`, for every `n`. -/
def Obligations.RotlMovesEveryBit : Prop :=
  ∀ (a : Lane) (n : Nat),
    rotl64 a n = rotl64 a (n % 64) ∧ rotl64 a 0 = a ∧
    ∀ i < 64, (rotl64 a n).getLsbD ((i + n) % 64) = a.getLsbD i

/-- R121, R124, R128: θ and χ bit by bit, for every lane array, and the round as θ, then ρ/π, then χ, then ι. The column
indices are modulo 5. Corner cases: θ is the identity where every column parity is 0; χ keeps a row of zeros and a row of
ones. -/
def Obligations.ThetaAndChiBitByBit : Prop :=
  ∀ A : Lanes,
    (∀ (x y : Fin 5), ∀ z < 64, (theta A x y).getLsbD z =
      ((A x y).getLsbD z ^^
        ((A (x + 4) 0).getLsbD z ^^ (A (x + 4) 1).getLsbD z ^^ (A (x + 4) 2).getLsbD z ^^
          (A (x + 4) 3).getLsbD z ^^ (A (x + 4) 4).getLsbD z) ^^
        ((A (x + 1) 0).getLsbD ((z + 63) % 64) ^^ (A (x + 1) 1).getLsbD ((z + 63) % 64) ^^
          (A (x + 1) 2).getLsbD ((z + 63) % 64) ^^ (A (x + 1) 3).getLsbD ((z + 63) % 64) ^^
          (A (x + 1) 4).getLsbD ((z + 63) % 64)))) ∧
    (∀ (x y : Fin 5), ∀ z < 64, (chi A x y).getLsbD z =
      ((A x y).getLsbD z ^^ (!(A (x + 1) y).getLsbD z && (A (x + 2) y).getLsbD z))) ∧
    (∀ R : Byte, keccakRound A R = iota (chi (rhoPi (theta A))) R) ∧
    ((∀ x, A x 0 ^^^ A x 1 ^^^ A x 2 ^^^ A x 3 ^^^ A x 4 = 0) → theta A = A) ∧
    (∀ y, (∀ x, A x y = 0) → ∀ x, chi A x y = 0) ∧
    (∀ y, (∀ x, A x y = 0xFFFFFFFFFFFFFFFF) → ∀ x, chi A x y = 0xFFFFFFFFFFFFFFFF)

/-- R123: the lane walk in closed form; the offsets `r[x][y]` stand as the rule's table has them, a row per y. -/
def Obligations.RhoPiClosedForm : Prop :=
  ∀ (A : Lanes) (x y : Fin 5),
    rhoPi A y (2 * x + 3 * y) =
      rotl64 (A x y)
        (([[0, 1, 62, 28, 27],
           [36, 44, 6, 55, 20],
           [3, 10, 43, 25, 39],
           [41, 45, 15, 21, 8],
           [18, 2, 61, 56, 14]].getD y.val []).getD x.val 0)

/-- R125: the LFSR step as a shift and a conditional XOR. -/
def Obligations.LfsrStepFeedback : Prop :=
  ∀ R : Byte, lfsrStep R = (R.extractLsb' 0 7 ++ 0#1) ^^^ (if R.getLsbD 7 then 0x71 else 0x00)

/-- R127: in round `k`, ι XORs RC[k] into lane (0,0), and the LFSR leaves the round as the table says; `R_0 = 0x01`. The
rule's table, a row per round: (RC[k], LFSR after round k). -/
def Obligations.RoundConstantTable : Prop :=
  let rows : List (Lane × Byte) :=
    [(0x0000000000000001, 0x80), (0x0000000000008082, 0xD8), (0x800000000000808A, 0x1A), (0x8000000080008000, 0xDF),
     (0x000000000000808B, 0x09), (0x0000000080000001, 0x35), (0x8000000080008081, 0x4F), (0x8000000000008009, 0xCA),
     (0x000000000000008A, 0x70), (0x0000000000000088, 0x41), (0x0000000080008009, 0xEC), (0x000000008000000A, 0xD5),
     (0x000000008000808B, 0xCD), (0x800000000000008B, 0x63), (0x8000000000008089, 0xAB), (0x8000000000008003, 0xAA),
     (0x8000000000008002, 0x2A), (0x8000000000000080, 0xF2), (0x000000000000800A, 0xE8), (0x800000008000000A, 0x37),
     (0x8000000080008081, 0x3E), (0x8000000000008080, 0x0B), (0x0000000080000001, 0x44), (0x8000000080008008, 0x8E)]
  ∀ (A : Lanes), ∀ k < 24,
    iota A ((0x01 :: rows.map Prod.snd).getD k 0) =
      (setLane A 0 0 (A 0 0 ^^^ (rows.getD k (0, 0)).1), (rows.getD k (0, 0)).2)

/-- R26: the byte view and the lane view are exact inverses. -/
def Obligations.LaneCodecRoundTrip : Prop :=
  (∀ S : StateReg, fromLanes (toLanes S) = S) ∧ (∀ L : Lanes, toLanes (fromLanes L) = L)

/-- R22, R23, R25: a lane is its eight bytes, little-endian; packing lanes puts byte `k` of lane `i` at `8*i + k`; bit
`b` of byte `i` is bit `8*i + b` of S. -/
def Obligations.LaneBytesAreLittleEndian : Prop :=
  (∀ (S : StateReg) (x y : Fin 5), ∀ k < 8,
    (toLanes S x y).extractLsb' (8 * k) 8 = byteOf S (8 * (x.val + 5 * y.val) + k)) ∧
  (∀ (L : Lanes) (x y : Fin 5), ∀ k < 8,
    byteOf (fromLanes L) (8 * (x.val + 5 * y.val) + k) = (L x y).extractLsb' (8 * k) 8) ∧
  (∀ (S : StateReg), ∀ i < 200, ∀ b < 8, (byteOf S i).getLsbD b = S.getLsbD (8 * i + b))

/-- R133, R134: the engine step: nothing while BUSY = 0 (the model's choice, log 11: R133 gives the engine no step then);
one round of S.lane, LFSR and RND; with round 23 the completion, which in the collision case XORs 0x80 into byte RATE-1
and starts the second permutation. -/
def Obligations.EngineStepPerformsOneRound : Prop :=
  ∀ (k : Kse) (p : Lanes × Byte), p = keccakRound (toLanes k.sreg) k.lfsr →
    (k.busy = false → k.engineStep = .ok k) ∧
    (k.busy = true → k.rnd + 1 ≠ 24 →
      k.engineStep = .ok { k with sreg := fromLanes p.1, lfsr := p.2, rnd := k.rnd + 1 }) ∧
    (k.busy = true → k.rnd + 1 = 24 → k.cont = false →
      k.engineStep = .ok { k with
        sreg := fromLanes p.1, lfsr := p.2, rnd := 24, permcnt := k.permcnt + 1, busy := false }) ∧
    (k.busy = true → k.rnd + 1 = 24 → k.cont = true → 1 ≤ k.rate.toNat → k.rate.toNat ≤ 199 →
      ∃ q, k.engineStep = .ok q ∧
        (∀ j < 200, byteOf q.sreg j =
          byteOf (fromLanes p.1) j ^^^ (if j = k.rate.toNat - 1 then 0x80 else 0)) ∧
        q = { k with sreg := q.sreg, permcnt := k.permcnt + 1, busy := true, cont := false, rnd := 0, lfsr := 0x01 })

/-- R135, R129, R261: 24 engine steps after `start_perm(0)` make one Keccak-f[1600] of S; BUSY is 1 until the last. -/
def Obligations.PermutationTakesTwentyFourSteps : Prop :=
  ∀ k : Kse,
    (k.startPerm false).engineRun 24 = .ok { k with
      sreg := keccakFBytes k.sreg, busy := false, cont := false, rnd := 24, lfsr := 0x8E, permcnt := k.permcnt + 1 } ∧
    ∀ n < 24, ∃ q, (k.startPerm false).engineRun n = .ok q ∧ q.busy = true

/-- R135, R134, R261: 48 engine steps after `start_perm(1)` make Keccak-f[1600] twice, with 0x80 XORed into byte
RATE-1 between; BUSY is 1 until the last. -/
def Obligations.CollisionTakesFortyEightSteps : Prop :=
  ∀ (k : Kse) (M : StateReg), 1 ≤ k.rate.toNat → k.rate.toNat ≤ 199 →
    (∀ j < 200, byteOf M j = byteOf (keccakFBytes k.sreg) j ^^^ (if j = k.rate.toNat - 1 then 0x80 else 0)) →
    (k.startPerm true).engineRun 48 = .ok { k with
      sreg := keccakFBytes M, busy := false, cont := false, rnd := 24, lfsr := 0x8E, permcnt := k.permcnt + 2 } ∧
    ∀ n < 48, ∃ q, (k.startPerm true).engineRun n = .ok q ∧ q.busy = true

/-- R261: BUSY = 1 never persists: from every state a run can be in, at most 48 engine steps make BUSY 0, with no host
action. -/
def Obligations.BusyEnds : Prop :=
  ∀ k : Kse, k.Inv → ∃ q, k.engineRun 48 = .ok q ∧ q.busy = false

/-! ### The bus (20_memory.md) -/

/-- R77, R75: a STATE read while BUSY = 0 returns the bytes at `off` and up, little-endian, and changes no state. -/
def Obligations.StateReadWhileIdle : Prop :=
  ∀ (s : State) (off : Offset) (n : Size),
    off.toNat % n.bytes = 0 → off.toNat + n.bytes ≤ 0x0C8 → s.kse.busy = false →
    ∃ d, hostStep (.read off n) s = .next { s with response := some (.readOk d) } ∧
      ∀ j < 8, d.extractLsb' (8 * j) 8 = if j < n.bytes then byteOf s.kse.sreg (off.toNat + j) else 0

/-- R78, R75: a STATE write: while BUSY = 0 it replaces the addressed bytes and nothing else; while BUSY = 1 it is
dropped and BUSY is recorded. -/
def Obligations.StateWrite : Prop :=
  ∀ (s : State) (off : Offset) (n : Size) (v : Lane),
    off.toNat % n.bytes = 0 → off.toNat + n.bytes ≤ 0x0C8 →
    (s.kse.busy = false →
      ∃ t, hostStep (.write off n v) s = .next t ∧
        (∀ j < 200, byteOf t.kse.sreg j =
          if off.toNat ≤ j ∧ j < off.toNat + n.bytes then v.extractLsb' (8 * (j - off.toNat)) 8
          else byteOf s.kse.sreg j) ∧
        t = { s with response := some .writeOk, kse := { s.kse with sreg := t.kse.sreg } }) ∧
    (s.kse.busy = true →
      hostStep (.write off n v) s =
        .next { s with response := some .writeOk, kse := s.kse.recordError .busy })

/-- R76: while BUSY = 0 an 8-byte access at `8*(x+5*y)` is lane `(x, y)`. -/
def Obligations.LaneAccess : Prop :=
  ∀ (s : State) (x y : Fin 5) (v : Lane), s.kse.busy = false →
    hostStep (.read (BitVec.ofNat 12 (8 * (x.val + 5 * y.val))) .b8) s =
      .next { s with response := some (.readOk (toLanes s.kse.sreg x y)) } ∧
    ∃ t, hostStep (.write (BitVec.ofNat 12 (8 * (x.val + 5 * y.val))) .b8 v) s = .next t ∧
      toLanes t.kse.sreg = setLane (toLanes s.kse.sreg) x y v

/-- R49: the fields of a STATUS read, whatever BUSY is. -/
def Obligations.StatusReadFields : Prop :=
  ∀ s : State, ∃ d, hostStep (.read 0x104 .b4) s = .next { s with response := some (.readOk d) } ∧
    d.getLsbD 0 = s.kse.busy ∧ d.getLsbD 1 = s.kse.configured ∧
    d.extractLsb' 2 2 = (match s.kse.phase with | .absorb => 0 | .squeeze => 1 | .done => 2) ∧
    d.extractLsb' 4 4 =
      (match s.kse.err with
        | .noError => 0 | .illegal => 1 | .busy => 2 | .phase => 3 | .nocfg => 4 | .config => 5) ∧
    d.extractLsb' 8 8 = s.kse.pos ∧ d.extractLsb' 16 48 = 0

/-- R48, R50 to R55, R57, R59, R79: the other control registers read exactly, whatever BUSY is; CMD reads as 0. -/
def Obligations.ControlReads : Prop :=
  ∀ s : State, ∀ p ∈ ([(0x100, 0), (0x108, s.kse.dout.setWidth 64), (0x10C, s.kse.remain.setWidth 64),
      (0x110, s.kse.cfgRate.setWidth 64), (0x114, s.kse.cfgCap.setWidth 64), (0x118, s.kse.cfgSuffix.setWidth 64),
      (0x11C, s.kse.cfgOutlen.setWidth 64), (0x124, s.kse.outlen.setWidth 64), (0x12C, s.kse.permcnt.setWidth 64)] : List (Offset × Lane)),
    hostStep (.read p.1 .b4) s = .next { s with response := some (.readOk p.2) }

/-- R56, R58: ACTCFG reads exactly, whatever BUSY is; SEQDBG reads exactly while BUSY = 0. -/
def Obligations.ActcfgAndSeqdbgFields : Prop :=
  ∀ s : State,
    (∃ d, hostStep (.read 0x120 .b4) s = .next { s with response := some (.readOk d) } ∧
      d.extractLsb' 0 8 = s.kse.rate ∧ d.extractLsb' 8 8 = s.kse.cap ∧ d.extractLsb' 16 8 = s.kse.suffix ∧
      d.extractLsb' 24 40 = 0) ∧
    (s.kse.busy = false →
      ∃ d, hostStep (.read 0x128 .b4) s = .next { s with response := some (.readOk d) } ∧
        d.extractLsb' 0 5 = s.kse.rnd ∧ d.extractLsb' 5 3 = 0 ∧ d.extractLsb' 8 8 = s.kse.lfsr ∧
        d.getLsbD 16 = s.kse.cont ∧ d.extractLsb' 17 47 = 0)

/-- R77, R79, R8: while BUSY = 1 a STATE read and a SEQDBG read return a fresh `draw()`, cut to the access's width,
and change no KSE state. -/
def Obligations.BusyReadsAreUnspecified : Prop :=
  ∀ (s : State) (off : Offset) (n : Size), s.kse.busy = true →
    (off.toNat % n.bytes = 0 ∧ off.toNat + n.bytes ≤ 0x0C8 ∨ off = 0x128 ∧ n = .b4) →
    hostStep (.read off n) s = .next { s with
      drawCount := s.drawCount + 1
      response := some (.readOk (((Config.draw s.drawCount).extractLsb' 0 (8 * n.bytes)).setWidth 64)) }

/-- R80, R52 to R55: CFG_* take their low bits, also while BUSY = 1; read-only registers ignore a write. -/
def Obligations.ControlWrites : Prop :=
  ∀ (s : State) (v : Lane),
    hostStep (.write 0x110 .b4 v) s = .next { s with
      response := some .writeOk, kse := { s.kse with cfgRate := v.extractLsb' 0 8 } } ∧
    hostStep (.write 0x114 .b4 v) s = .next { s with
      response := some .writeOk, kse := { s.kse with cfgCap := v.extractLsb' 0 8 } } ∧
    hostStep (.write 0x118 .b4 v) s = .next { s with
      response := some .writeOk, kse := { s.kse with cfgSuffix := v.extractLsb' 0 8 } } ∧
    hostStep (.write 0x11C .b4 v) s = .next { s with
      response := some .writeOk, kse := { s.kse with cfgOutlen := v.extractLsb' 0 16 } } ∧
    (∀ off ∈ ([0x104, 0x108, 0x10C, 0x120, 0x124, 0x128, 0x12C] : List Offset),
      hostStep (.write off .b4 v) s = .next { s with response := some .writeOk }) ∧
    hostStep (.write 0x100 .b4 v) s = executeCommand (v.extractLsb' 0 32) { s with response := some .writeOk }

/-- R60, R81: reserved offsets read as 0 and ignore writes, at every legal width. -/
def Obligations.ReservedAccess : Prop :=
  ∀ (s : State) (off : Offset) (n : Size) (v : Lane), off.toNat % n.bytes = 0 →
    (0x0C8 ≤ off.toNat ∧ off.toNat < 0x100 ∨ 0x130 ≤ off.toNat) →
    hostStep (.read off n) s = .next { s with response := some (.readOk 0) } ∧
    hostStep (.write off n v) s = .next { s with response := some .writeOk }

/-- R73, R82: a misaligned access, and a control access not 4 bytes wide, get the ERROR response and change no KSE
state; the read data is a `draw()`. -/
def Obligations.IllegalAccessIsABusError : Prop :=
  ∀ (s : State) (off : Offset) (n : Size) (v : Lane),
    (off.toNat % n.bytes ≠ 0 ∨ 0x100 ≤ off.toNat ∧ off.toNat < 0x130 ∧ n ≠ .b4) →
    hostStep (.read off n) s = .next { s with
      drawCount := s.drawCount + 1
      response := some (.readError (((Config.draw s.drawCount).extractLsb' 0 (8 * n.bytes)).setWidth 64)) } ∧
    hostStep (.write off n v) s = .next { s with response := some .writeError }

/-- R84: every read answers, and no read changes KSE. -/
def Obligations.ReadsHaveNoSideEffect : Prop :=
  ∀ (s : State) (off : Offset) (n : Size), ∃ t, hostStep (.read off n) s = .next t ∧ t.kse = s.kse

/-- R109: a WAIT in the host's turn is one STATUS read; it is over once BUSY = 0, and repeats while BUSY = 1. -/
def Obligations.WaitPollsStatus : Prop :=
  ∀ (s : State) (rest : List HostOp), s.nextTurn = .host → s.program = .wait :: rest →
    ∃ t, step s = .next t ∧ t.kse = s.kse ∧ t.sched = s.sched.tail ∧
      t.program = if s.kse.busy then .wait :: rest else rest

/-! ### Reset and the whole machine -/

/-- R250, R58: the state after reset, and a reset at any time, also while BUSY = 1, leads to it. -/
def Obligations.ResetValues : Prop :=
  State.reset.kse = {
    sreg := 0, configured := false, rate := 0, cap := 0, suffix := 0, outlen := 0
    cfgRate := 0, cfgCap := 0, cfgSuffix := 0, cfgOutlen := 0
    phase := .absorb, pos := 0, remain := 0, dout := 0
    busy := false, cont := false, rnd := 0, lfsr := 0x01, err := .noError, permcnt := 0 } ∧
  State.reset.kse.statusWord = 0x00000000 ∧ State.reset.kse.seqdbgWord = 0x00000100 ∧
  ∀ s : State, s.nextTurn = .reset → ∃ t, step s = .next t ∧ t.kse = State.reset.kse

/-- R30, R34, R37 to R41 hold at reset. -/
def Obligations.InvariantHoldsAtReset : Prop := State.reset.kse.Inv

/-- R30, R34, R37 to R41: the configuration, the controller and the sequencer keep their invariants in every step. -/
def Obligations.EveryStepKeepsTheInvariant : Prop :=
  ∀ s t : State, s.kse.Inv → step s = .next t → t.kse.Inv

/-- R256, D30: in every state a run can be in, every step goes on: no fault, no refusal. -/
def Obligations.EveryStepAnswers : Prop :=
  ∀ s : State, s.kse.Inv → ∃ t, step s = .next t

/-- R29, R196: only SELVAR and SETCFG (and reset) write the active configuration. -/
def Obligations.OnlySelvarAndSetcfgConfigure : Prop :=
  ∀ s t : State, step s = .next t →
    (t.kse.configured = s.kse.configured ∧ t.kse.rate = s.kse.rate ∧ t.kse.cap = s.kse.cap ∧
      t.kse.suffix = s.kse.suffix ∧ t.kse.outlen = s.kse.outlen) ∨
    s.nextTurn = .reset ∨
    ∃ v rest, s.WritesCommand v rest ∧ s.kse.busy = false ∧
      ((∃ imm, decodeWord v = .ok (.selvar imm)) ∨ decodeWord v = .ok .setcfg)

/-- R225, R221: a recorded error goes only by CLRERR, INIT, SELVAR, a successful SETCFG or reset, and then to 0. -/
def Obligations.OnlyRecoveryClearsTheError : Prop :=
  ∀ s t : State, step s = .next t → s.kse.err ≠ .noError →
    t.kse.err = s.kse.err ∨
    (t.kse.err = .noError ∧
      (s.nextTurn = .reset ∨
        ∃ v rest, s.WritesCommand v rest ∧ s.kse.busy = false ∧
          (decodeWord v = .ok .clrerr ∨ decodeWord v = .ok .init ∨ (∃ imm, decodeWord v = .ok (.selvar imm)) ∨
            (decodeWord v = .ok .setcfg ∧ s.kse.staged.valid = true))))

/-- R135, R256: while BUSY = 1 no host step touches S, the sequencer, the controller or the configuration; it can only
record an error or write CFG_*. -/
def Obligations.HostCannotDisturbARunningPermutation : Prop :=
  ∀ s t : State, s.kse.busy = true → s.nextTurn = .host → step s = .next t →
    t.kse = { s.kse with
      err := t.kse.err, cfgRate := t.kse.cfgRate, cfgCap := t.kse.cfgCap, cfgSuffix := t.kse.cfgSuffix
      cfgOutlen := t.kse.cfgOutlen }

/-- R254: a step that starts a permutation is an ABSORB that fills the block, a PAD, a SQUEEZE that ends a block with
bytes remaining, or a PERMUTE. -/
def Obligations.OnlyListedCommandsStartAPermutation : Prop :=
  ∀ s t : State, step s = .next t → s.kse.busy = false → t.kse.busy = true →
    ∃ v rest, s.WritesCommand v rest ∧
      ((∃ imm, decodeWord v = .ok (.absorb imm) ∧ s.kse.pos + 1 = s.kse.rate) ∨
       decodeWord v = .ok .pad ∨
       (decodeWord v = .ok .squeeze ∧ s.kse.pos + 1 = s.kse.rate ∧ s.kse.remain - 1 ≠ 0) ∨
       decodeWord v = .ok .permute)

/-- R43, R232: PERMCNT grows by 1, modulo 2^32, when a permutation completes, and is cleared by `init_effects` and
reset; nothing else changes it. -/
def Obligations.PermcntCountsCompletedPermutations : Prop :=
  ∀ s t : State, step s = .next t →
    (t.kse.permcnt =
      if s.nextTurn = .engine ∧ s.kse.busy = true ∧ s.kse.rnd + 1 = 24 then s.kse.permcnt + 1 else s.kse.permcnt) ∨
    (t.kse.permcnt = 0 ∧
      (s.nextTurn = .reset ∨
        ∃ v rest, s.WritesCommand v rest ∧ s.kse.busy = false ∧
            (decodeWord v = .ok .init ∨ (∃ imm, decodeWord v = .ok (.selvar imm)) ∨
              (decodeWord v = .ok .setcfg ∧ s.kse.staged.valid = true))))

/-- R171: what a step does to KSE does not depend on the unspecified values drawn so far or on the last response. -/
def Obligations.DrawsReachNoRegister : Prop :=
  ∀ (s t : State) (n : Nat) (r : Option Response), step s = .next t →
    ∃ u, step { s with drawCount := n, response := r } = .next u ∧
      u.kse = t.kse ∧ u.program = t.program ∧ u.sched = t.sched

/-! ### Equivalence with the source's functions (41_sponge.md section 4) -/

/-- R165: ABSORB of each byte of `m`, each followed by a wait, is the source's absorption of `m`: the state, the
trailing block size in POS, and one permutation per full block; the gate stays open, and RATE, SUFFIX and OUTLEN are as
before. -/
def Obligations.AbsorptionEquivalence : Prop :=
  ∀ (s : State) (m : List Byte), s.kse.Inv → s.kse.Open .absorb → s.kse.pos = 0 →
    ∃ t, absorbAll m s = .next t ∧
      (t.kse.sreg, t.kse.pos.toNat) =
        sourceAbsorb s.kse.rate.toNat (m.length / s.kse.rate.toNat) m s.kse.sreg ∧
      t.kse.pos.toNat = m.length % s.kse.rate.toNat ∧
      t.kse.permcnt = s.kse.permcnt + BitVec.ofNat 32 (m.length / s.kse.rate.toNat) ∧
      t.kse.Open .absorb ∧ t.kse.rate = s.kse.rate ∧ t.kse.suffix = s.kse.suffix ∧ t.kse.outlen = s.kse.outlen

/-- R166, R162, R134: PAD and a wait is the source's padding with trailing block size POS, two permutations in the
collision case, else one. -/
def Obligations.PaddingEquivalence : Prop :=
  ∀ s : State, s.kse.Inv → s.kse.Open .absorb →
    commandThenWait .pad s = .next { s with
      kse := { s.kse with
        sreg := sourcePad s.kse.rate.toNat s.kse.suffix s.kse.pos.toNat s.kse.sreg
        phase := .squeeze, pos := 0, remain := s.kse.outlen
        busy := false, cont := false, rnd := 24, lfsr := 0x8E
        permcnt := s.kse.permcnt +
          if s.kse.suffix &&& 0x80 ≠ 0 ∧ s.kse.pos.toNat = s.kse.rate.toNat - 1 then 2 else 1 } }

/-- R167, R163, R170: REMAIN SQUEEZE commands, each followed by a wait, show the source's output bytes in DOUT; then
PHASE is DONE and REMAIN 0, after `ceil(REMAIN / RATE) - 1` permutations. -/
def Obligations.SqueezingEquivalence : Prop :=
  ∀ s : State, s.kse.Inv → s.kse.Open .squeeze → s.kse.pos = 0 →
    ∃ out t, squeezeAll s.kse.remain.toNat s = some (out, t) ∧
      out = sourceSqueeze s.kse.rate.toNat s.kse.remain.toNat s.kse.remain.toNat s.kse.sreg ∧
      out.length = s.kse.remain.toNat ∧
      t.kse.phase = .done ∧ t.kse.remain = 0 ∧
      t.kse.permcnt = s.kse.permcnt + BitVec.ofNat 32 ((s.kse.remain.toNat - 1) / s.kse.rate.toNat)

/-- R168 to R170, R164: from a freshly loaded configuration, ABSORB of each byte of `m`, PAD and OUTLEN SQUEEZE commands,
each followed by a wait, give the source's hash: OUTLEN bytes; where OUTLEN is at most RATE they stand in S after the PAD;
the permutations are counted; one more SQUEEZE records PHASE. -/
def Obligations.HashEquivalence : Prop :=
  ∀ (s : State) (m : List Byte), s.kse.Inv → s.kse.Open .absorb →
    s.kse.sreg = 0 → s.kse.pos = 0 → s.kse.permcnt = 0 →
    ∃ t u w out, absorbAll m s = .next t ∧ commandThenWait .pad t = .next u ∧
      squeezeAll s.kse.outlen.toNat u = some (out, w) ∧
      out = sourceHash s.kse.rate.toNat s.kse.suffix s.kse.outlen.toNat m ∧
      out.length = s.kse.outlen.toNat ∧
      (s.kse.outlen.toNat ≤ s.kse.rate.toNat → out = (List.range s.kse.outlen.toNat).map (byteOf u.kse.sreg)) ∧
      w.kse.permcnt = BitVec.ofNat 32 (m.length / s.kse.rate.toNat +
        (1 + if s.kse.suffix &&& 0x80 ≠ 0 ∧ m.length % s.kse.rate.toNat = s.kse.rate.toNat - 1 then 1 else 0) +
        (s.kse.outlen.toNat - 1) / s.kse.rate.toNat) ∧
      exec .squeeze w = .next { w with kse := { w.kse with err := .phase } }
end

