-- ==== Sys2Proof/Laws/Bits.lean ====
section
/-! SUPPORT. The views of S bit by bit (R23): what each byte or lane operation does to each bit. -/

namespace Sys2Proof.Machine

/-- R23: bit `b` of byte `i` is bit `8*i + b` of S. -/
theorem getLsbD_byteOf (S : StateReg) (i b : Nat) :
    (byteOf S i).getLsbD b = (decide (b < 8) && S.getLsbD (8 * i + b)) := by
  simp [byteOf]

/-- R23: bit `j` of lane `(x, y)` is bit `64*(x+5*y) + j` of S. -/
theorem getLsbD_toLanes (S : StateReg) (x y : Fin 5) (j : Nat) :
    (toLanes S x y).getLsbD j = (decide (j < 64) && S.getLsbD (64 * laneIndex x y + j)) := by
  simp [toLanes]

/-- Replacing byte `i` replaces the bits `8*i` to `8*i+7`. -/
theorem getLsbD_setByte (S : StateReg) (i : Nat) (b : Byte) (j : Nat) (hj : j < 1600) :
    (setByte S i b).getLsbD j = if 8 * i ≤ j ∧ j < 8 * i + 8 then b.getLsbD (j - 8 * i) else S.getLsbD j := by
  have hff : ∀ t, (0xFF#8).getLsbD t = decide (t < 8) := by
    intro t
    by_cases ht : t < 8
    · simp only [ht, decide_true]; revert t; decide
    · simp [BitVec.getLsbD_of_ge _ _ (Nat.le_of_not_lt ht), ht]
  simp only [setByte, BitVec.getLsbD_or, BitVec.getLsbD_and, BitVec.getLsbD_not, BitVec.getLsbD_shiftLeft,
    BitVec.getLsbD_setWidth, hff, hj, decide_true, Bool.true_and]
  by_cases h1 : j < 8 * i
  · simp [h1, Nat.not_le.mpr h1]
  · by_cases h2 : j < 8 * i + 8
    · simp [h1, h2, Nat.not_lt.mp h1, show j - 8 * i < 8 by omega, show j - 8 * i < 1600 by omega]
    · have h4 : b.getLsbD (j - 8 * i) = false := BitVec.getLsbD_of_ge _ _ (by omega)
      simp only [h1, h2, h4, show ¬ (j - 8 * i < 8) by omega, decide_false, Bool.not_false, Bool.and_false,
        Bool.and_true, Bool.or_false, and_false, if_false]

/-- A byte written reads back. -/
theorem byteOf_setByte_self (S : StateReg) {i : Nat} (hi : i < 200) (b : Byte) : byteOf (setByte S i b) i = b := by
  apply BitVec.eq_of_getLsbD_eq
  intro j hj
  rw [getLsbD_byteOf, getLsbD_setByte _ _ _ _ (by omega)]
  simp [hj]

/-- Every other byte stays. -/
theorem byteOf_setByte_ne (S : StateReg) {i j : Nat} (hj : j < 200) (hij : j ≠ i) (b : Byte) :
    byteOf (setByte S i b) j = byteOf S j := by
  apply BitVec.eq_of_getLsbD_eq
  intro t ht
  rw [getLsbD_byteOf, getLsbD_byteOf, getLsbD_setByte _ _ _ _ (by omega), if_neg (by omega)]

/-- Two states whose 200 bytes agree are equal. -/
theorem eq_of_byteOf_eq {S T : StateReg} (h : ∀ i < 200, byteOf S i = byteOf T i) : S = T := by
  apply BitVec.eq_of_getLsbD_eq
  intro j hj
  have hb := congrArg (fun b : Byte => b.getLsbD (j % 8)) (h (j / 8) (by omega))
  simp only [getLsbD_byteOf, Nat.mod_lt j (show 8 > 0 by decide), decide_true, Bool.true_and, Nat.div_add_mod] at hb
  exact hb

/-- The packed lanes bit by bit: bit `j` of S is bit `j mod 64` of lane `j div 64`. -/
theorem getLsbD_packLanes (L : Lanes) (n : Nat) (hn : n ≤ 25) (j : Nat) :
    (packLanes L n).getLsbD j =
      (decide (j < 64 * n) && (L (Fin.ofNat 5 (j / 64)) (Fin.ofNat 5 (j / 64 / 5))).getLsbD (j % 64)) := by
  induction n with
  | zero => simp [packLanes]
  | succ n ih =>
    simp only [packLanes, BitVec.getLsbD_or, ih (by omega), BitVec.getLsbD_shiftLeft, BitVec.getLsbD_setWidth]
    by_cases h1 : j < 64 * n
    · simp [h1, show j < 64 * (n + 1) by omega]
    · by_cases h2 : j < 64 * (n + 1)
      · have h3 : j / 64 = n := by omega
        have h4 : j - 64 * n = j % 64 := by omega
        simp only [h1, h2, h3, h4, show j < 1600 by omega, show j % 64 < 1600 by omega, decide_true, decide_false,
          Bool.false_and, Bool.false_or, Bool.not_false, Bool.true_and]
      · have h4 : (L (Fin.ofNat 5 n) (Fin.ofNat 5 (n / 5))).getLsbD (j - 64 * n) = false :=
          BitVec.getLsbD_of_ge _ _ (by omega)
        simp only [h1, h2, h4, decide_false, Bool.false_and, Bool.and_false, Bool.or_false]

/-- Reading a lane right after `setLane`. -/
@[simp] theorem setLane_self (A : Lanes) (x y : Fin 5) (v : Lane) : setLane A x y v x y = v := by simp [setLane]

/-- `setLane` leaves every other lane. -/
theorem setLane_ne (A : Lanes) {x y u w : Fin 5} (v : Lane) (h : ¬(u = x ∧ w = y)) :
    setLane A x y v u w = A u w := by simp [setLane, h]

/-- The LFSR leaves a round 7 steps on, whatever the lanes are (R126). -/
theorem iotaStep_lfsr (l : List Nat) (p : Lane × Byte) :
    (l.foldl iotaStep p).2 = l.foldl (fun R _ => lfsrStep R) p.2 := by
  induction l generalizing p with
  | nil => rfl
  | cons i l ih => simpa [iotaStep] using ih (iotaStep p i)

/-- The LFSR after a round (R126, R128). -/
theorem keccakRound_lfsr (A : Lanes) (R : Byte) :
    (keccakRound A R).2 = (List.range 7).foldl (fun R _ => lfsrStep R) R := iotaStep_lfsr _ _

end Sys2Proof.Machine
end

