-- ==== Sys2Proof/Laws/State.lean ====
section
/-! SUPPORT. One lemma per field per shared update of the KSE state. -/

namespace Sys2Proof.Machine

variable (k : Kse) (c : ErrCode) (b : Bool) (v : Variant)

/-! ### `init_effects` (R191) -/

@[simp] theorem initEffects_sreg : k.initEffects.sreg = 0 := rfl
@[simp] theorem initEffects_configured : k.initEffects.configured = k.configured := rfl
@[simp] theorem initEffects_rate : k.initEffects.rate = k.rate := rfl
@[simp] theorem initEffects_cap : k.initEffects.cap = k.cap := rfl
@[simp] theorem initEffects_suffix : k.initEffects.suffix = k.suffix := rfl
@[simp] theorem initEffects_outlen : k.initEffects.outlen = k.outlen := rfl
@[simp] theorem initEffects_cfgRate : k.initEffects.cfgRate = k.cfgRate := rfl
@[simp] theorem initEffects_cfgCap : k.initEffects.cfgCap = k.cfgCap := rfl
@[simp] theorem initEffects_cfgSuffix : k.initEffects.cfgSuffix = k.cfgSuffix := rfl
@[simp] theorem initEffects_cfgOutlen : k.initEffects.cfgOutlen = k.cfgOutlen := rfl
@[simp] theorem initEffects_phase : k.initEffects.phase = .absorb := rfl
@[simp] theorem initEffects_pos : k.initEffects.pos = 0 := rfl
@[simp] theorem initEffects_remain : k.initEffects.remain = 0 := rfl
@[simp] theorem initEffects_dout : k.initEffects.dout = 0 := rfl
@[simp] theorem initEffects_busy : k.initEffects.busy = k.busy := rfl
@[simp] theorem initEffects_cont : k.initEffects.cont = k.cont := rfl
@[simp] theorem initEffects_rnd : k.initEffects.rnd = k.rnd := rfl
@[simp] theorem initEffects_lfsr : k.initEffects.lfsr = k.lfsr := rfl
@[simp] theorem initEffects_err : k.initEffects.err = .noError := rfl
@[simp] theorem initEffects_permcnt : k.initEffects.permcnt = 0 := rfl

/-! ### `start_perm` (R132) -/

@[simp] theorem startPerm_sreg : (k.startPerm b).sreg = k.sreg := rfl
@[simp] theorem startPerm_configured : (k.startPerm b).configured = k.configured := rfl
@[simp] theorem startPerm_rate : (k.startPerm b).rate = k.rate := rfl
@[simp] theorem startPerm_cap : (k.startPerm b).cap = k.cap := rfl
@[simp] theorem startPerm_suffix : (k.startPerm b).suffix = k.suffix := rfl
@[simp] theorem startPerm_outlen : (k.startPerm b).outlen = k.outlen := rfl
@[simp] theorem startPerm_cfgRate : (k.startPerm b).cfgRate = k.cfgRate := rfl
@[simp] theorem startPerm_cfgCap : (k.startPerm b).cfgCap = k.cfgCap := rfl
@[simp] theorem startPerm_cfgSuffix : (k.startPerm b).cfgSuffix = k.cfgSuffix := rfl
@[simp] theorem startPerm_cfgOutlen : (k.startPerm b).cfgOutlen = k.cfgOutlen := rfl
@[simp] theorem startPerm_phase : (k.startPerm b).phase = k.phase := rfl
@[simp] theorem startPerm_pos : (k.startPerm b).pos = k.pos := rfl
@[simp] theorem startPerm_remain : (k.startPerm b).remain = k.remain := rfl
@[simp] theorem startPerm_dout : (k.startPerm b).dout = k.dout := rfl
@[simp] theorem startPerm_busy : (k.startPerm b).busy = true := rfl
@[simp] theorem startPerm_cont : (k.startPerm b).cont = b := rfl
@[simp] theorem startPerm_rnd : (k.startPerm b).rnd = 0 := rfl
@[simp] theorem startPerm_lfsr : (k.startPerm b).lfsr = 0x01 := rfl
@[simp] theorem startPerm_err : (k.startPerm b).err = k.err := rfl
@[simp] theorem startPerm_permcnt : (k.startPerm b).permcnt = k.permcnt := rfl

/-! ### loading a configuration (R192, R193) -/

@[simp] theorem loadVariant_sreg : (k.loadVariant v).sreg = k.sreg := rfl
@[simp] theorem loadVariant_configured : (k.loadVariant v).configured = true := rfl
@[simp] theorem loadVariant_rate : (k.loadVariant v).rate = v.rate := rfl
@[simp] theorem loadVariant_cap : (k.loadVariant v).cap = v.cap := rfl
@[simp] theorem loadVariant_suffix : (k.loadVariant v).suffix = v.suffix := rfl
@[simp] theorem loadVariant_outlen : (k.loadVariant v).outlen = v.outlen := rfl
@[simp] theorem loadVariant_cfgRate : (k.loadVariant v).cfgRate = k.cfgRate := rfl
@[simp] theorem loadVariant_cfgCap : (k.loadVariant v).cfgCap = k.cfgCap := rfl
@[simp] theorem loadVariant_cfgSuffix : (k.loadVariant v).cfgSuffix = k.cfgSuffix := rfl
@[simp] theorem loadVariant_cfgOutlen : (k.loadVariant v).cfgOutlen = k.cfgOutlen := rfl
@[simp] theorem loadVariant_phase : (k.loadVariant v).phase = k.phase := rfl
@[simp] theorem loadVariant_pos : (k.loadVariant v).pos = k.pos := rfl
@[simp] theorem loadVariant_remain : (k.loadVariant v).remain = k.remain := rfl
@[simp] theorem loadVariant_dout : (k.loadVariant v).dout = k.dout := rfl
@[simp] theorem loadVariant_busy : (k.loadVariant v).busy = k.busy := rfl
@[simp] theorem loadVariant_cont : (k.loadVariant v).cont = k.cont := rfl
@[simp] theorem loadVariant_rnd : (k.loadVariant v).rnd = k.rnd := rfl
@[simp] theorem loadVariant_lfsr : (k.loadVariant v).lfsr = k.lfsr := rfl
@[simp] theorem loadVariant_err : (k.loadVariant v).err = k.err := rfl
@[simp] theorem loadVariant_permcnt : (k.loadVariant v).permcnt = k.permcnt := rfl

/-! ### a failed SETCFG (R193) -/

@[simp] theorem unconfigure_sreg : k.unconfigure.sreg = k.sreg := rfl
@[simp] theorem unconfigure_configured : k.unconfigure.configured = false := rfl
@[simp] theorem unconfigure_rate : k.unconfigure.rate = 0 := rfl
@[simp] theorem unconfigure_cap : k.unconfigure.cap = 0 := rfl
@[simp] theorem unconfigure_suffix : k.unconfigure.suffix = 0 := rfl
@[simp] theorem unconfigure_outlen : k.unconfigure.outlen = 0 := rfl
@[simp] theorem unconfigure_cfgRate : k.unconfigure.cfgRate = k.cfgRate := rfl
@[simp] theorem unconfigure_cfgCap : k.unconfigure.cfgCap = k.cfgCap := rfl
@[simp] theorem unconfigure_cfgSuffix : k.unconfigure.cfgSuffix = k.cfgSuffix := rfl
@[simp] theorem unconfigure_cfgOutlen : k.unconfigure.cfgOutlen = k.cfgOutlen := rfl
@[simp] theorem unconfigure_phase : k.unconfigure.phase = .absorb := rfl
@[simp] theorem unconfigure_pos : k.unconfigure.pos = 0 := rfl
@[simp] theorem unconfigure_remain : k.unconfigure.remain = 0 := rfl
@[simp] theorem unconfigure_dout : k.unconfigure.dout = k.dout := rfl
@[simp] theorem unconfigure_busy : k.unconfigure.busy = k.busy := rfl
@[simp] theorem unconfigure_cont : k.unconfigure.cont = k.cont := rfl
@[simp] theorem unconfigure_rnd : k.unconfigure.rnd = k.rnd := rfl
@[simp] theorem unconfigure_lfsr : k.unconfigure.lfsr = k.lfsr := rfl
@[simp] theorem unconfigure_err : k.unconfigure.err = k.err := rfl
@[simp] theorem unconfigure_permcnt : k.unconfigure.permcnt = k.permcnt := rfl

/-! ### a round (R133) -/

@[simp] theorem performRound_sreg : k.performRound.sreg = fromLanes (keccakRound (toLanes k.sreg) k.lfsr).1 := rfl
@[simp] theorem performRound_configured : k.performRound.configured = k.configured := rfl
@[simp] theorem performRound_rate : k.performRound.rate = k.rate := rfl
@[simp] theorem performRound_cap : k.performRound.cap = k.cap := rfl
@[simp] theorem performRound_suffix : k.performRound.suffix = k.suffix := rfl
@[simp] theorem performRound_outlen : k.performRound.outlen = k.outlen := rfl
@[simp] theorem performRound_cfgRate : k.performRound.cfgRate = k.cfgRate := rfl
@[simp] theorem performRound_cfgCap : k.performRound.cfgCap = k.cfgCap := rfl
@[simp] theorem performRound_cfgSuffix : k.performRound.cfgSuffix = k.cfgSuffix := rfl
@[simp] theorem performRound_cfgOutlen : k.performRound.cfgOutlen = k.cfgOutlen := rfl
@[simp] theorem performRound_phase : k.performRound.phase = k.phase := rfl
@[simp] theorem performRound_pos : k.performRound.pos = k.pos := rfl
@[simp] theorem performRound_remain : k.performRound.remain = k.remain := rfl
@[simp] theorem performRound_dout : k.performRound.dout = k.dout := rfl
@[simp] theorem performRound_busy : k.performRound.busy = k.busy := rfl
@[simp] theorem performRound_cont : k.performRound.cont = k.cont := rfl
@[simp] theorem performRound_rnd : k.performRound.rnd = k.rnd + 1 := rfl
@[simp] theorem performRound_lfsr : k.performRound.lfsr = (keccakRound (toLanes k.sreg) k.lfsr).2 := rfl
@[simp] theorem performRound_err : k.performRound.err = k.err := rfl
@[simp] theorem performRound_permcnt : k.performRound.permcnt = k.permcnt := rfl

/-! ### `record_error` (R221) -/

@[simp] theorem recordError_sreg : (k.recordError c).sreg = k.sreg := by unfold Kse.recordError; split <;> simp_all
@[simp] theorem recordError_configured : (k.recordError c).configured = k.configured := by unfold Kse.recordError; split <;> simp_all
@[simp] theorem recordError_rate : (k.recordError c).rate = k.rate := by unfold Kse.recordError; split <;> simp_all
@[simp] theorem recordError_cap : (k.recordError c).cap = k.cap := by unfold Kse.recordError; split <;> simp_all
@[simp] theorem recordError_suffix : (k.recordError c).suffix = k.suffix := by unfold Kse.recordError; split <;> simp_all
@[simp] theorem recordError_outlen : (k.recordError c).outlen = k.outlen := by unfold Kse.recordError; split <;> simp_all
@[simp] theorem recordError_cfgRate : (k.recordError c).cfgRate = k.cfgRate := by unfold Kse.recordError; split <;> simp_all
@[simp] theorem recordError_cfgCap : (k.recordError c).cfgCap = k.cfgCap := by unfold Kse.recordError; split <;> simp_all
@[simp] theorem recordError_cfgSuffix : (k.recordError c).cfgSuffix = k.cfgSuffix := by unfold Kse.recordError; split <;> simp_all
@[simp] theorem recordError_cfgOutlen : (k.recordError c).cfgOutlen = k.cfgOutlen := by unfold Kse.recordError; split <;> simp_all
@[simp] theorem recordError_phase : (k.recordError c).phase = k.phase := by unfold Kse.recordError; split <;> simp_all
@[simp] theorem recordError_pos : (k.recordError c).pos = k.pos := by unfold Kse.recordError; split <;> simp_all
@[simp] theorem recordError_remain : (k.recordError c).remain = k.remain := by unfold Kse.recordError; split <;> simp_all
@[simp] theorem recordError_dout : (k.recordError c).dout = k.dout := by unfold Kse.recordError; split <;> simp_all
@[simp] theorem recordError_busy : (k.recordError c).busy = k.busy := by unfold Kse.recordError; split <;> simp_all
@[simp] theorem recordError_cont : (k.recordError c).cont = k.cont := by unfold Kse.recordError; split <;> simp_all
@[simp] theorem recordError_rnd : (k.recordError c).rnd = k.rnd := by unfold Kse.recordError; split <;> simp_all
@[simp] theorem recordError_lfsr : (k.recordError c).lfsr = k.lfsr := by unfold Kse.recordError; split <;> simp_all
@[simp] theorem recordError_err : (k.recordError c).err = if k.err = .noError then c else k.err := by unfold Kse.recordError; split <;> simp_all
@[simp] theorem recordError_permcnt : (k.recordError c).permcnt = k.permcnt := by unfold Kse.recordError; split <;> simp_all

variable (off : Offset) (n : Size) (d : Lane) (r : Reg) (w : Word)

/-! ### a STATE write (R78) -/

@[simp] theorem writeState_sreg : (k.writeState off n d).sreg = if k.busy then k.sreg else writeBytes k.sreg off.toNat d n.bytes := by
  unfold Kse.writeState; split <;> simp_all
@[simp] theorem writeState_configured : (k.writeState off n d).configured = k.configured := by
  unfold Kse.writeState; split <;> simp_all
@[simp] theorem writeState_rate : (k.writeState off n d).rate = k.rate := by
  unfold Kse.writeState; split <;> simp_all
@[simp] theorem writeState_cap : (k.writeState off n d).cap = k.cap := by
  unfold Kse.writeState; split <;> simp_all
@[simp] theorem writeState_suffix : (k.writeState off n d).suffix = k.suffix := by
  unfold Kse.writeState; split <;> simp_all
@[simp] theorem writeState_outlen : (k.writeState off n d).outlen = k.outlen := by
  unfold Kse.writeState; split <;> simp_all
@[simp] theorem writeState_cfgRate : (k.writeState off n d).cfgRate = k.cfgRate := by
  unfold Kse.writeState; split <;> simp_all
@[simp] theorem writeState_cfgCap : (k.writeState off n d).cfgCap = k.cfgCap := by
  unfold Kse.writeState; split <;> simp_all
@[simp] theorem writeState_cfgSuffix : (k.writeState off n d).cfgSuffix = k.cfgSuffix := by
  unfold Kse.writeState; split <;> simp_all
@[simp] theorem writeState_cfgOutlen : (k.writeState off n d).cfgOutlen = k.cfgOutlen := by
  unfold Kse.writeState; split <;> simp_all
@[simp] theorem writeState_phase : (k.writeState off n d).phase = k.phase := by
  unfold Kse.writeState; split <;> simp_all
@[simp] theorem writeState_pos : (k.writeState off n d).pos = k.pos := by
  unfold Kse.writeState; split <;> simp_all
@[simp] theorem writeState_remain : (k.writeState off n d).remain = k.remain := by
  unfold Kse.writeState; split <;> simp_all
@[simp] theorem writeState_dout : (k.writeState off n d).dout = k.dout := by
  unfold Kse.writeState; split <;> simp_all
@[simp] theorem writeState_busy : (k.writeState off n d).busy = k.busy := by
  unfold Kse.writeState; split <;> simp_all
@[simp] theorem writeState_cont : (k.writeState off n d).cont = k.cont := by
  unfold Kse.writeState; split <;> simp_all
@[simp] theorem writeState_rnd : (k.writeState off n d).rnd = k.rnd := by
  unfold Kse.writeState; split <;> simp_all
@[simp] theorem writeState_lfsr : (k.writeState off n d).lfsr = k.lfsr := by
  unfold Kse.writeState; split <;> simp_all
@[simp] theorem writeState_err : (k.writeState off n d).err = if k.busy ∧ k.err = .noError then .busy else k.err := by
  unfold Kse.writeState; split <;> simp_all
@[simp] theorem writeState_permcnt : (k.writeState off n d).permcnt = k.permcnt := by
  unfold Kse.writeState; split <;> simp_all

/-! ### a control register write (R80) -/

@[simp] theorem writeReg_sreg : (k.writeReg r w).sreg = k.sreg := by cases r <;> rfl
@[simp] theorem writeReg_configured : (k.writeReg r w).configured = k.configured := by cases r <;> rfl
@[simp] theorem writeReg_rate : (k.writeReg r w).rate = k.rate := by cases r <;> rfl
@[simp] theorem writeReg_cap : (k.writeReg r w).cap = k.cap := by cases r <;> rfl
@[simp] theorem writeReg_suffix : (k.writeReg r w).suffix = k.suffix := by cases r <;> rfl
@[simp] theorem writeReg_outlen : (k.writeReg r w).outlen = k.outlen := by cases r <;> rfl
@[simp] theorem writeReg_phase : (k.writeReg r w).phase = k.phase := by cases r <;> rfl
@[simp] theorem writeReg_pos : (k.writeReg r w).pos = k.pos := by cases r <;> rfl
@[simp] theorem writeReg_remain : (k.writeReg r w).remain = k.remain := by cases r <;> rfl
@[simp] theorem writeReg_dout : (k.writeReg r w).dout = k.dout := by cases r <;> rfl
@[simp] theorem writeReg_busy : (k.writeReg r w).busy = k.busy := by cases r <;> rfl
@[simp] theorem writeReg_cont : (k.writeReg r w).cont = k.cont := by cases r <;> rfl
@[simp] theorem writeReg_rnd : (k.writeReg r w).rnd = k.rnd := by cases r <;> rfl
@[simp] theorem writeReg_lfsr : (k.writeReg r w).lfsr = k.lfsr := by cases r <;> rfl
@[simp] theorem writeReg_err : (k.writeReg r w).err = k.err := by cases r <;> rfl
@[simp] theorem writeReg_permcnt : (k.writeReg r w).permcnt = k.permcnt := by cases r <;> rfl

variable (s : State)

/-! ### Taking a draw (R8) and a turn (R2) -/

@[simp] theorem takeDraw_kse : s.takeDraw.2.kse = s.kse := rfl
@[simp] theorem takeDraw_program : s.takeDraw.2.program = s.program := rfl
@[simp] theorem takeDraw_sched : s.takeDraw.2.sched = s.sched := rfl
@[simp] theorem takeDraw_response : s.takeDraw.2.response = s.response := rfl
@[simp] theorem takeDraw_drawCount : s.takeDraw.2.drawCount = s.drawCount + 1 := rfl
@[simp] theorem afterTurn_kse : s.afterTurn.kse = s.kse := rfl
@[simp] theorem afterTurn_program : s.afterTurn.program = s.program := rfl
@[simp] theorem afterTurn_response : s.afterTurn.response = s.response := rfl
@[simp] theorem afterTurn_drawCount : s.afterTurn.drawCount = s.drawCount := rfl
@[simp] theorem afterTurn_sched : s.afterTurn.sched = s.sched.tail := rfl

end Sys2Proof.Machine
end

