-- ==== Sys2Proof/Laws/Ops.lean ====
section
/-! SUPPORT. What each shared operation of the commands can do, said once. -/

namespace Sys2Proof.Machine

variable {k q : Kse} {s t : State} {f body : Kse → Except Fault Kse}

/-- A KSE step that answers a next state changes only the KSE state. -/
theorem onKse_next_iff : s.onKse f = .next t ↔ ∃ k, f s.kse = .ok k ∧ t = { s with kse := k } := by
  unfold State.onKse
  split <;> rename_i h <;> simp [h, eq_comm]

/-- A KSE step that goes on. -/
theorem onKse_of_ok (h : f s.kse = .ok k) : s.onKse f = .next { s with kse := k } := by simp [State.onKse, h]

/-- R105: BUSY is recorded and nothing else happens. -/
theorem command_of_busy (h : k.busy = true) : Kse.command body k = .ok (k.recordError .busy) := by
  simp [Kse.command, h]

/-- R105: while BUSY = 0 the command is executed. -/
theorem command_of_idle (h : k.busy = false) : Kse.command body k = body k := by simp [Kse.command, h]

/-- R105: everything a command write can do to KSE. -/
theorem command_cases (h : Kse.command body k = .ok q) :
    (k.busy = true ∧ q = k.recordError .busy) ∨ (k.busy = false ∧ body k = .ok q) := by
  unfold Kse.command at h
  split at h
  · rename_i hb; exact .inl ⟨hb, by simpa using h.symm⟩
  · rename_i hb; exact .inr ⟨by simpa using hb, h⟩

/-- R160: the gate is open. -/
theorem sponge_of_open {p : Phase} (hc : k.configured = true) (hp : k.phase = p) (he : k.err = .noError) :
    Kse.sponge p body k = body k := by simp [Kse.sponge, hc, hp, he]

/-- R160: everything a sponge command can do. -/
theorem sponge_cases {p : Phase} (h : Kse.sponge p body k = .ok q) :
    (k.configured = false ∧ q = k.recordError .nocfg) ∨
    (k.configured = true ∧ k.phase ≠ p ∧ q = k.recordError .phase) ∨
    (k.configured = true ∧ k.phase = p ∧ k.err ≠ .noError ∧ q = k) ∨
    (k.configured = true ∧ k.phase = p ∧ k.err = .noError ∧ body k = .ok q) := by
  unfold Kse.sponge at h
  split at h
  · rename_i hc; exact .inl ⟨hc, by simpa using h.symm⟩
  · rename_i hc
    have hc : k.configured = true := by simpa using hc
    split at h
    · rename_i hp; exact .inr (.inl ⟨hc, hp, by simpa using h.symm⟩)
    · rename_i hp
      have hp : k.phase = p := by simpa using hp
      split at h
      · rename_i he; exact .inr (.inr (.inl ⟨hc, hp, he, by simpa using h.symm⟩))
      · rename_i he; exact .inr (.inr (.inr ⟨hc, hp, by simpa using he, h⟩))

/-- A byte of S is readable. -/
theorem readByte_of_lt {i : Nat} (h : i < 200) : k.readByte i = .ok (byteOf k.sreg i) := by
  simp [Kse.readByte, Config.stateBytes, h]

/-- A byte of S takes an XOR. -/
theorem xorByte_of_lt {i : Nat} {b : Byte} (h : i < 200) :
    k.xorByte i b = .ok { k with sreg := setByte k.sreg i (byteOf k.sreg i ^^^ b) } := by
  simp [Kse.xorByte, Config.stateBytes, h]

/-- Everything a byte read can do. -/
theorem readByte_ok {i : Nat} {b : Byte} (h : k.readByte i = .ok b) : i < 200 ∧ b = byteOf k.sreg i := by
  unfold Kse.readByte at h
  split at h
  · rename_i hi; exact ⟨hi, by simpa using h.symm⟩
  · simp at h

/-- Everything a byte XOR can do. -/
theorem xorByte_ok {i : Nat} {b : Byte} (h : k.xorByte i b = .ok q) :
    i < 200 ∧ q = { k with sreg := setByte k.sreg i (byteOf k.sreg i ^^^ b) } := by
  unfold Kse.xorByte at h
  split at h
  · rename_i hi; exact ⟨hi, by simpa using h.symm⟩
  · simp at h

/-- R134: everything a completion can do. -/
theorem complete_cases (h : k.complete = .ok q) :
    (k.cont = false ∧ q = { k with permcnt := k.permcnt + 1, busy := false }) ∨
    (k.cont = true ∧ k.lastIndex < 200 ∧
      q = { k with
        permcnt := k.permcnt + 1
        sreg := setByte k.sreg k.lastIndex (byteOf k.sreg k.lastIndex ^^^ 0x80)
        busy := true, cont := false, rnd := 0, lfsr := 0x01 }) := by
  simp only [Kse.complete] at h
  split at h
  · rename_i hc
    split at h
    · rename_i k' hx
      obtain ⟨hi, rfl⟩ := xorByte_ok hx
      exact .inr ⟨hc, hi, by simpa [Kse.startPerm, Kse.lastIndex] using h.symm⟩
    · simp at h
  · rename_i hc; exact .inl ⟨by simpa using hc, by simpa using h.symm⟩

/-- R133: everything an engine step can do. -/
theorem engineStep_cases (h : k.engineStep = .ok q) :
    (k.busy = false ∧ q = k) ∨
    (k.busy = true ∧ k.rnd + 1 ≠ 24 ∧ q = k.performRound) ∨
    (k.busy = true ∧ k.rnd + 1 = 24 ∧ k.performRound.complete = .ok q) := by
  simp only [Kse.engineStep] at h
  split at h
  · rename_i hb
    split at h
    · rename_i hr; exact .inr (.inr ⟨hb, by simpa using hr, h⟩)
    · rename_i hr; exact .inr (.inl ⟨hb, by simpa using hr, by simpa using h.symm⟩)
  · rename_i hb; exact .inl ⟨by simpa using hb, by simpa using h.symm⟩

/-- R161: everything ABSORB behind the gate can do. -/
theorem absorbByte_cases {imm : Byte} (h : k.absorbByte imm = .ok q) :
    k.pos.toNat < 200 ∧
    ((k.pos + 1 = k.rate ∧
        q = { k with
          sreg := setByte k.sreg k.pos.toNat (byteOf k.sreg k.pos.toNat ^^^ imm)
          pos := 0, busy := true, cont := false, rnd := 0, lfsr := 0x01 }) ∨
     (k.pos + 1 ≠ k.rate ∧
        q = { k with
          sreg := setByte k.sreg k.pos.toNat (byteOf k.sreg k.pos.toNat ^^^ imm)
          pos := k.pos + 1 })) := by
  unfold Kse.absorbByte at h
  split at h
  · simp at h
  · rename_i k' hx
    obtain ⟨hi, rfl⟩ := xorByte_ok hx
    refine ⟨hi, ?_⟩
    split at h
    · rename_i hr; exact .inl ⟨hr, by simpa [Kse.startPerm] using h.symm⟩
    · rename_i hr; exact .inr ⟨hr, by simpa using h.symm⟩

/-- R162: everything PAD behind the gate can do. -/
theorem padBlock_cases (h : k.padBlock = .ok q) :
    k.pos.toNat < 200 ∧
    ((k.padCollides = true ∧
        q = { k with
          sreg := setByte k.sreg k.pos.toNat (byteOf k.sreg k.pos.toNat ^^^ k.suffix)
          phase := .squeeze, pos := 0, remain := k.outlen
          busy := true, cont := true, rnd := 0, lfsr := 0x01 }) ∨
     (k.padCollides = false ∧ k.lastIndex < 200 ∧
        q = { k with
          sreg :=
            let S := setByte k.sreg k.pos.toNat (byteOf k.sreg k.pos.toNat ^^^ k.suffix)
            setByte S k.lastIndex (byteOf S k.lastIndex ^^^ 0x80)
          phase := .squeeze, pos := 0, remain := k.outlen
          busy := true, cont := false, rnd := 0, lfsr := 0x01 })) := by
  unfold Kse.padBlock at h
  split at h
  · simp at h
  · rename_i k' hx
    obtain ⟨hi, rfl⟩ := xorByte_ok hx
    refine ⟨hi, ?_⟩
    simp only at h
    split at h
    · rename_i hc; exact .inl ⟨hc, by simpa [Kse.startPerm] using h.symm⟩
    · rename_i hc
      split at h
      · simp at h
      · rename_i k'' hy
        obtain ⟨hj, rfl⟩ := xorByte_ok hy
        exact .inr ⟨by simpa using hc, hj, by simpa [Kse.startPerm, Kse.lastIndex] using h.symm⟩

/-- R163: everything SQUEEZE behind the gate can do. -/
theorem squeezeByte_cases (h : k.squeezeByte = .ok q) :
    k.pos.toNat < 200 ∧
    ((k.remain - 1 = 0 ∧
        q = { k with dout := byteOf k.sreg k.pos.toNat, pos := k.pos + 1, remain := k.remain - 1, phase := .done }) ∨
     (k.remain - 1 ≠ 0 ∧ k.pos + 1 = k.rate ∧
        q = { k with
          dout := byteOf k.sreg k.pos.toNat, pos := 0, remain := k.remain - 1
          busy := true, cont := false, rnd := 0, lfsr := 0x01 }) ∨
     (k.remain - 1 ≠ 0 ∧ k.pos + 1 ≠ k.rate ∧
        q = { k with dout := byteOf k.sreg k.pos.toNat, pos := k.pos + 1, remain := k.remain - 1 })) := by
  unfold Kse.squeezeByte at h
  split at h
  · simp at h
  · rename_i b hb
    obtain ⟨hi, rfl⟩ := readByte_ok hb
    refine ⟨hi, ?_⟩
    simp only at h
    split at h
    · rename_i hr; exact .inl ⟨hr, by simpa using h.symm⟩
    · rename_i hr
      split at h
      · rename_i hp; exact .inr (.inl ⟨hr, hp, by simpa [Kse.startPerm] using h.symm⟩)
      · rename_i hp; exact .inr (.inr ⟨hr, hp, by simpa using h.symm⟩)

/-- R161: ABSORB behind the gate goes on wherever POS addresses a byte of S. -/
theorem absorbByte_of_lt {imm : Byte} (h : k.pos.toNat < 200) :
    k.absorbByte imm = .ok
      (if k.pos + 1 = k.rate then
        { k with
          sreg := setByte k.sreg k.pos.toNat (byteOf k.sreg k.pos.toNat ^^^ imm)
          pos := 0, busy := true, cont := false, rnd := 0, lfsr := 0x01 }
      else
        { k with
          sreg := setByte k.sreg k.pos.toNat (byteOf k.sreg k.pos.toNat ^^^ imm)
          pos := k.pos + 1 }) := by
  simp only [Kse.absorbByte, xorByte_of_lt h]
  split <;> rfl

/-- R162: PAD behind the gate goes on wherever POS and RATE-1 address bytes of S. -/
theorem padBlock_of_lt (h : k.pos.toNat < 200) (hl : k.lastIndex < 200) :
    k.padBlock = .ok { k with
      sreg :=
        let S := setByte k.sreg k.pos.toNat (byteOf k.sreg k.pos.toNat ^^^ k.suffix)
        if k.padCollides then S else setByte S k.lastIndex (byteOf S k.lastIndex ^^^ 0x80)
      phase := .squeeze, pos := 0, remain := k.outlen
      busy := true, cont := k.padCollides, rnd := 0, lfsr := 0x01 } := by
  simp only [Kse.padBlock, xorByte_of_lt h]
  cases hc : k.padCollides
  · rw [xorByte_of_lt (by exact hl)]; rfl
  · rfl

/-- R163: SQUEEZE behind the gate goes on wherever POS addresses a byte of S. -/
theorem squeezeByte_of_lt (h : k.pos.toNat < 200) :
    k.squeezeByte = .ok
      (if k.remain - 1 = 0 then
        { k with dout := byteOf k.sreg k.pos.toNat, pos := k.pos + 1, remain := k.remain - 1, phase := .done }
      else if k.pos + 1 = k.rate then
        { k with
          dout := byteOf k.sreg k.pos.toNat, pos := 0, remain := k.remain - 1
          busy := true, cont := false, rnd := 0, lfsr := 0x01 }
      else
        { k with dout := byteOf k.sreg k.pos.toNat, pos := k.pos + 1, remain := k.remain - 1 }) := by
  simp only [Kse.squeezeByte, readByte_of_lt h]
  split
  · rfl
  · split <;> rfl

/-- R194 `cfg_valid` as a proposition. -/
theorem valid_iff (v : Variant) :
    v.valid = true ↔
      1 ≤ v.rate.toNat ∧ v.rate.toNat ≤ 199 ∧ v.rate.toNat + v.cap.toNat = 200 ∧ 1 ≤ v.outlen.toNat := by
  simp only [Variant.valid, Bool.and_eq_true, decide_eq_true_eq, beq_iff_eq, and_assoc]

/-- R193: everything SETCFG can do. -/
theorem setConfig_cases (h : k.setConfig = .ok q) :
    (k.staged.valid = true ∧ q = (k.loadVariant k.staged).initEffects) ∨
    (k.staged.valid = false ∧ q = k.unconfigure.recordError .config) := by
  unfold Kse.setConfig at h
  split at h
  · rename_i hv; exact .inl ⟨hv, by simpa using h.symm⟩
  · rename_i hv; exact .inr ⟨by simpa using hv, by simpa using h.symm⟩

/-- R192: everything SELVAR can do. -/
theorem selectVariant_cases {imm : Byte} (h : k.selectVariant imm = .ok q) :
    (∃ v, variantRom imm = some v ∧ q = (k.loadVariant v).initEffects) ∨
    (variantRom imm = none ∧ q = k.recordError .illegal) := by
  unfold Kse.selectVariant at h
  split at h
  · rename_i v hv; exact .inl ⟨v, hv, by simpa using h.symm⟩
  · rename_i hv; exact .inr ⟨hv, by simpa using h.symm⟩

/-- R31: every row of the variant ROM is a valid configuration (R30). -/
theorem variantRom_valid {imm : Byte} {v : Variant} (h : variantRom imm = some v) : v.valid = true := by
  unfold variantRom at h
  split at h <;> simp at h <;> subst h <;> decide

end Sys2Proof.Machine
end

