-- ==== Sys2Proof/Laws/Bus.lean ====
section
/-! SUPPORT. What the bus operations and the turns can do, said once. -/

namespace Sys2Proof.Machine

variable {s t : State}

/-- A read leaves KSE as it is, whatever data it returns (R84). -/
@[simp] theorem readData_kse (off : Offset) (n : Size) : (s.readData off n).2.kse = s.kse := by
  unfold State.readData; split <;> (try split) <;> simp

@[simp] theorem readData_program (off : Offset) (n : Size) : (s.readData off n).2.program = s.program := by
  unfold State.readData; split <;> (try split) <;> simp

@[simp] theorem readData_sched (off : Offset) (n : Size) : (s.readData off n).2.sched = s.sched := by
  unfold State.readData; split <;> (try split) <;> simp

/-- R75: byte `j` of a little-endian read. -/
theorem readBytes_byte (S : StateReg) (off n j : Nat) (hj : j < 8) (hn : n ≤ 8) :
    (readBytes S off n).extractLsb' (8 * j) 8 = if j < n then byteOf S (off + j) else 0 := by
  induction n with
  | zero => simp [readBytes]
  | succ n ih =>
    have ih := ih (by omega)
    apply BitVec.eq_of_getLsbD_eq
    intro b hb
    have ih := congrArg (fun v : Byte => v.getLsbD b) ih
    simp only [BitVec.getLsbD_extractLsb', hb, decide_true, Bool.true_and] at ih
    simp only [readBytes, BitVec.getLsbD_extractLsb', hb, decide_true, Bool.true_and, BitVec.getLsbD_or, ih,
      BitVec.getLsbD_shiftLeft, BitVec.getLsbD_setWidth]
    rcases Nat.lt_trichotomy j n with h | h | h
    · simp [h, show j < n + 1 by omega, show 8 * j + b < 8 * n by omega]
    · subst h
      simp [show 8 * j + b < 64 by omega, show b < 64 by omega]
    · have h8 : (byteOf S (off + n)).getLsbD (8 * j + b - 8 * n) = false := BitVec.getLsbD_of_ge _ _ (by omega)
      simp [show ¬ j < n by omega, show ¬ j < n + 1 by omega, h8]

/-- R75: what a little-endian write leaves in each byte of S. -/
theorem byteOf_writeBytes (S : StateReg) (off : Nat) (v : Lane) (n j : Nat) (hj : j < 200) :
    byteOf (writeBytes S off v n) j =
      if off ≤ j ∧ j < off + n then v.extractLsb' (8 * (j - off)) 8 else byteOf S j := by
  induction n with
  | zero => simp [writeBytes, show ¬ (off ≤ j ∧ j < off) by omega]
  | succ n ih =>
    simp only [writeBytes]
    by_cases h : j = off + n
    · subst h
      rw [byteOf_setByte_self _ hj, if_pos (by omega)]
      congr 2; omega
    · rw [byteOf_setByte_ne _ hj h, ih]
      by_cases h2 : off ≤ j ∧ j < off + n
      · rw [if_pos h2, if_pos (by omega)]
      · rw [if_neg h2, if_neg (by omega)]

/-- R109, R29: RDDIGEST makes as many reads as the active OUTLEN. -/
@[simp] theorem digestReads_length (o : Half) : (digestReads o).length = o.toNat := by simp [digestReads]

/-- R109: read `k` of RDDIGEST. -/
theorem digestReads_getElem? (o : Half) {k : Nat} (h : k < o.toNat) :
    (digestReads o)[k]? = some (.access (.read (BitVec.ofNat 12 k) .b1)) := by simp [digestReads, h]

@[simp] theorem beginDigest_kse (rest : List HostOp) : (s.beginDigest rest).kse = s.kse := rfl
@[simp] theorem beginDigest_program (rest : List HostOp) :
    (s.beginDigest rest).program = digestReads s.kse.outlen ++ rest := rfl
@[simp] theorem beginDigest_sched (rest : List HostOp) : (s.beginDigest rest).sched = s.sched := rfl
@[simp] theorem beginDigest_response (rest : List HostOp) : (s.beginDigest rest).response = s.response := rfl
@[simp] theorem beginDigest_drawCount (rest : List HostOp) : (s.beginDigest rest).drawCount = s.drawCount := rfl

/-- R77, R79, R81, R82: everything a bus read can do. -/
theorem hostStep_read_cases {off : Offset} {n : Size} (h : hostStep (.read off n) s = .next t) :
    t.kse = s.kse ∧ t.program = s.program ∧ t.sched = s.sched := by
  simp only [hostStep] at h
  split at h <;> (injection h with h; subst h; simp)

/-- A command write is the execution of the decoded command, or the recording of ILLEGAL (R105). -/
theorem executeCommand_cases {v : Word} (h : executeCommand v s = .next t) :
    (∃ i, decodeWord v = .ok i ∧ exec i s = .next t) ∨
    ((∃ e, decodeWord v = .error e) ∧ s.onKse (Kse.command fun k => .ok (k.recordError .illegal)) = .next t) := by
  unfold executeCommand at h
  split at h
  · rename_i i hi; exact .inl ⟨i, hi, h⟩
  · rename_i e he; exact .inr ⟨⟨e, he⟩, h⟩

/-- R74: everything a bus write can do. -/
theorem hostStep_write_cases {off : Offset} {n : Size} {v : Lane} (h : hostStep (.write off n v) s = .next t) :
    (t = { s with response := some .writeError }) ∨
    (t = { s with response := some .writeOk }) ∨
    (t = { s with response := some .writeOk, kse := s.kse.writeState off n v }) ∨
    (∃ r, r ≠ .cmd ∧ t = { s with response := some .writeOk, kse := s.kse.writeReg r (v.setWidth 32) }) ∨
    (legalAccess off n = true ∧ region off n = .control .cmd ∧
      executeCommand (v.setWidth 32) { s with response := some .writeOk } = .next t) := by
  simp only [hostStep] at h
  split at h
  · rename_i hl
    simp only [State.writeAccess] at h
    split at h
    · injection h with h; exact .inr (.inr (.inl h.symm))
    · rename_i hr; exact .inr (.inr (.inr (.inr ⟨hl, hr, h⟩)))
    · rename_i r hne hr
      injection h with h
      exact .inr (.inr (.inr (.inl ⟨r, fun hr => hne hr, h.symm⟩)))
    · injection h with h; exact .inr (.inl h.symm)
  · injection h with h; exact .inl h.symm

/-- R46, R73: the only legal access that reaches CMD is the 4-byte one at 0x100. -/
theorem cmd_access {off : Offset} {n : Size} (hl : legalAccess off n = true) (hr : region off n = .control .cmd) :
    off = cmdOffset ∧ n = .b4 := by
  simp only [legalAccess, hr, Bool.and_eq_true, beq_iff_eq] at hl
  obtain ⟨ha, rfl⟩ := hl
  refine ⟨?_, rfl⟩
  simp only [region] at hr
  split at hr
  · simp at hr
  · split at hr
    · rename_i hb
      have hq : (off.toNat - 0x100) / 4 = 0 := by
        simp only [regAt, Region.control.injEq] at hr
        split at hr <;> simp_all
      change off.toNat % 4 = 0 at ha
      apply BitVec.eq_of_toNat_eq
      change off.toNat = 0x100
      omega
    · simp at hr

/-- R2: a step is the next turn's, taken after the turn has left the schedule. -/
theorem step_eq (s : State) : step s = s.afterTurn.takeTurn s.nextTurn := rfl

end Sys2Proof.Machine
end

