-- ==== Sys2Proof/Laws/Decode.lean ====
section
/-! SUPPORT. The fields of a command word, and everything the decoder can answer. -/

namespace Sys2Proof

@[simp] theorem fieldOp_formatC (imm op : Byte) : fieldOp (formatC imm op) = op := by
  apply BitVec.eq_of_getLsbD_eq
  intro i hi
  simp [fieldOp, formatC, hi, show i < 32 by omega]

@[simp] theorem fieldImm_formatC (imm op : Byte) : fieldImm (formatC imm op) = imm := by
  apply BitVec.eq_of_getLsbD_eq
  intro i hi
  simp [fieldImm, formatC, hi, show 8 + i < 32 by omega]

@[simp] theorem fieldRsv_formatC (imm op : Byte) : fieldRsv (formatC imm op) = 0 := by
  apply BitVec.eq_of_getLsbD_eq
  intro i hi
  have h1 : op.getLsbD (16 + i) = false := BitVec.getLsbD_of_ge _ _ (by omega)
  have h2 : imm.getLsbD (16 + i - 8) = false := BitVec.getLsbD_of_ge _ _ (by omega)
  simp [fieldRsv, formatC, hi, h1, h2]

/-- A word whose RSV is zero is its own IMM and OP, put back together (R101). -/
theorem formatC_fields {v : Word} (h : fieldRsv v = 0) : formatC (fieldImm v) (fieldOp v) = v := by
  apply BitVec.eq_of_getLsbD_eq
  intro i hi
  have hr := congrArg (fun b : Half => b.getLsbD (i - 16)) h
  simp only [fieldRsv, BitVec.getLsbD_extractLsb'] at hr
  simp only [formatC, fieldImm, fieldOp, BitVec.getLsbD_or, BitVec.getLsbD_shiftLeft, BitVec.getLsbD_setWidth,
    BitVec.getLsbD_extractLsb', hi, decide_true, Bool.true_and]
  rcases Nat.lt_or_ge i 8 with h1 | h1
  · simp [h1]
  · rcases Nat.lt_or_ge i 16 with h2 | h2
    · simp [Nat.not_lt.mpr h1, show i - 8 < 8 by omega, show i - 8 < 32 by omega, show 8 + (i - 8) = i by omega]
    · rw [show 16 + (i - 16) = i by omega] at hr
      have hr : v.getLsbD i = false := by simpa [show i - 16 < 16 by omega] using hr
      simp [hr, Nat.not_lt.mpr h1, show ¬ (i - 8 < 8) by omega]

/-- R102: a command without an operand decodes if and only if IMM is zero. -/
theorem decodeNoOperand_ok_iff {imm : Byte} {j i : Instr} : decodeNoOperand imm j = .ok i ↔ imm = 0 ∧ i = j := by
  unfold decodeNoOperand
  split <;> rename_i h
  · simp only [Except.ok.injEq, h, true_and]; exact eq_comm
  · exact ⟨fun h2 => by simp at h2, fun h2 => absurd h2.1 h⟩

/-- R103, R104: everything the decoder can answer, in the fields of the word. -/
theorem decodeWord_cases {v : Word} {i : Instr} (h : decodeWord v = .ok i) :
    fieldRsv v = 0 ∧
    ((fieldOp v = 0 ∧ fieldImm v = 0 ∧ i = .nop) ∨
     (fieldOp v = 1 ∧ fieldImm v = 0 ∧ i = .init) ∨
     (fieldOp v = 2 ∧ (fieldImm v).toNat ≤ 3 ∧ i = .selvar (fieldImm v)) ∨
     (fieldOp v = 3 ∧ fieldImm v = 0 ∧ i = .setcfg) ∨
     (fieldOp v = 4 ∧ i = .absorb (fieldImm v)) ∨
     (fieldOp v = 5 ∧ fieldImm v = 0 ∧ i = .pad) ∨
     (fieldOp v = 6 ∧ fieldImm v = 0 ∧ i = .squeeze) ∨
     (fieldOp v = 7 ∧ fieldImm v = 0 ∧ i = .permute) ∨
     (fieldOp v = 8 ∧ fieldImm v = 0 ∧ i = .clrerr)) := by
  simp only [decodeWord] at h
  split at h
  · simp at h
  · rename_i hr
    refine ⟨by simpa using hr, ?_⟩
    generalize fieldOp v = op at h ⊢
    have key : ∀ (a : Byte), op.toNat = a.toNat → op = a := fun a ha => BitVec.eq_of_toNat_eq ha
    split at h <;> rename_i hop
    · rw [key 0 hop]; simpa [decodeNoOperand_ok_iff] using h
    · rw [key 1 hop]; simpa [decodeNoOperand_ok_iff] using h
    · rw [key 2 hop]
      split at h
      · rename_i hs; injection h with h; simp [hs, h]
      · simp at h
    · rw [key 3 hop]; simpa [decodeNoOperand_ok_iff] using h
    · rw [key 4 hop]; injection h with h; simp [h]
    · rw [key 5 hop]; simpa [decodeNoOperand_ok_iff] using h
    · rw [key 6 hop]; simpa [decodeNoOperand_ok_iff] using h
    · rw [key 7 hop]; simpa [decodeNoOperand_ok_iff] using h
    · rw [key 8 hop]; simpa [decodeNoOperand_ok_iff] using h
    · simp at h

/-- No two rows of the opcode table match one word. -/
theorem opcodeTable_no_overlap : opcodeTable.Pairwise fun r q => r.overlaps q = false := by decide

end Sys2Proof
end

