-- ==== Sys2Proof/Laws/PerInstr.lean ====
section
/-! SUPPORT. A statement about every instruction, one lemma per constructor. -/

namespace Sys2Proof.Laws.WordFields

/-- R101 to R103: the opcode of an instruction. -/
def opcode : Instr → Byte
  | .nop => 0x00
  | .init => 0x01
  | .selvar _ => 0x02
  | .setcfg => 0x03
  | .absorb _ => 0x04
  | .pad => 0x05
  | .squeeze => 0x06
  | .permute => 0x07
  | .clrerr => 0x08

/-- R102: the operand of an instruction, 0 where it has none. -/
def operand : Instr → Byte
  | .selvar imm => imm
  | .absorb imm => imm
  | _ => 0

/-- R101: the command word holds the opcode in OP, the operand in IMM, and zero in RSV. -/
def Statement (i : Instr) : Prop :=
  fieldOp (encode i) = opcode i ∧ fieldImm (encode i) = operand i ∧ fieldRsv (encode i) = 0

theorem nop : Statement .nop := by simp [Statement, encode, opcode, operand]
theorem init : Statement .init := by simp [Statement, encode, opcode, operand]
theorem selvar (imm : Byte) : Statement (.selvar imm) := by simp [Statement, encode, opcode, operand]
theorem setcfg : Statement .setcfg := by simp [Statement, encode, opcode, operand]
theorem absorb (imm : Byte) : Statement (.absorb imm) := by simp [Statement, encode, opcode, operand]
theorem pad : Statement .pad := by simp [Statement, encode, opcode, operand]
theorem squeeze : Statement .squeeze := by simp [Statement, encode, opcode, operand]
theorem permute : Statement .permute := by simp [Statement, encode, opcode, operand]
theorem clrerr : Statement .clrerr := by simp [Statement, encode, opcode, operand]

end Sys2Proof.Laws.WordFields
end

