-- ==== Sys2Proof/Laws/Step.lean ====
section
/-! SUPPORT. Everything a step and a command can do, said once: a statement about `step` cites `step_cases`,
`executeCommand_kse_cases` and `exec_idle_cases` and unfolds nothing. -/

namespace Sys2Proof.Machine

variable {s t : State} {k q : Kse}

/-! ### The state in which a command write is executed -/

@[simp] theorem afterCommandWrite_kse (rest : List HostOp) : (s.afterCommandWrite rest).kse = s.kse := rfl
@[simp] theorem afterCommandWrite_program (rest : List HostOp) : (s.afterCommandWrite rest).program = rest := rfl
@[simp] theorem afterCommandWrite_sched (rest : List HostOp) : (s.afterCommandWrite rest).sched = s.sched.tail := rfl
@[simp] theorem afterCommandWrite_response (rest : List HostOp) :
    (s.afterCommandWrite rest).response = some .writeOk := rfl
@[simp] theorem afterCommandWrite_drawCount (rest : List HostOp) :
    (s.afterCommandWrite rest).drawCount = s.drawCount := rfl

/-! ### Fields of the operations -/

/-- R221: recording an error changes ERR alone. -/
theorem recordError_eq (k : Kse) (c : ErrCode) : k.recordError c = { k with err := (k.recordError c).err } := by
  unfold Kse.recordError; split <;> rfl

/-- R134, R162: byte index RATE-1, for a RATE of at least 1. -/
theorem lastIndex_of_pos (h : 1 ≤ k.rate.toNat) : k.lastIndex = k.rate.toNat - 1 := by
  unfold Kse.lastIndex; have := k.rate.isLt; rw [BitVec.toNat_sub]; simp; omega

/-- R162: the collision case, for a RATE of at least 1. -/
theorem padCollides_iff (h : 1 ≤ k.rate.toNat) :
    k.padCollides = true ↔ k.suffix &&& 0x80 ≠ 0 ∧ k.pos.toNat = k.rate.toNat - 1 := by
  simp only [Kse.padCollides, lastIndex_of_pos h, Bool.and_eq_true, bne_iff_ne, beq_iff_eq]

/-- What an XOR into byte `i` leaves in byte `j`. -/
theorem byteOf_xor (S : StateReg) (i : Nat) (b : Byte) {j : Nat} (hj : j < 200) :
    byteOf (setByte S i (byteOf S i ^^^ b)) j = byteOf S j ^^^ (if j = i then b else 0) := by
  split
  · rename_i h; subst h; rw [byteOf_setByte_self _ hj]
  · rename_i h; rw [byteOf_setByte_ne _ hj h]; simp

/-! ### The engine (R133, R134) -/

/-- R133: a round before the last. -/
theorem engineStep_of_round (hb : k.busy = true) (hr : k.rnd + 1 ≠ 24) : k.engineStep = .ok k.performRound := by
  simp only [Kse.engineStep, hb, if_true]; rw [if_neg]; simpa using hr

/-- R133: the step that performs round 23 completes the permutation. -/
theorem engineStep_of_last (hb : k.busy = true) (hr : k.rnd + 1 = 24) : k.engineStep = k.performRound.complete := by
  simp only [Kse.engineStep, hb, if_true]; rw [if_pos]; simpa using hr

/-- R134: a completion without continuation. -/
theorem complete_of_last (hc : k.cont = false) :
    k.complete = .ok { k with permcnt := k.permcnt + 1, busy := false } := by simp [Kse.complete, hc]

/-- R134: the completion of a collision-case PAD's first permutation. -/
theorem complete_of_cont (hc : k.cont = true) (h : k.lastIndex < 200) :
    k.complete = .ok { k with
      permcnt := k.permcnt + 1
      sreg := setByte k.sreg k.lastIndex (byteOf k.sreg k.lastIndex ^^^ 0x80)
      busy := true, cont := false, rnd := 0, lfsr := 0x01 } := by
  have hx : Kse.xorByte { k with permcnt := k.permcnt + 1 } (Kse.lastIndex { k with permcnt := k.permcnt + 1 }) 0x80 = _ :=
    xorByte_of_lt h
  simp only [Kse.complete, hx]
  simp [hc, Kse.startPerm, Kse.lastIndex]

/-- One more engine step at the end. -/
theorem engineRun_succ (n : Nat) (k : Kse) :
    Kse.engineRun (n + 1) k = match Kse.engineRun n k with | .ok q => q.engineStep | .error e => .error e := by
  induction n generalizing k with
  | zero => simp [Kse.engineRun]; split <;> simp_all
  | succ n ih =>
    rw [Kse.engineRun]
    split
    · rename_i q hq; rw [ih, Kse.engineRun, hq]
    · rename_i q hq; rw [Kse.engineRun, hq]

/-- `m` engine steps, then `n`. -/
theorem engineRun_add (m n : Nat) (k : Kse) :
    Kse.engineRun (m + n) k = match Kse.engineRun m k with | .ok q => q.engineRun n | .error e => .error e := by
  induction n with
  | zero => simp [Kse.engineRun]; split <;> simp_all
  | succ n ih =>
    rw [← Nat.add_assoc, engineRun_succ, ih]
    split
    · rename_i q hq; split at hq <;> rename_i r hr
      · rw [engineRun_succ, hq]
      · cases hq
    · rename_i q hq; split at hq <;> rename_i r hr
      · rw [engineRun_succ, hq]
      · injection hq with hq; rw [hq]

/-- While BUSY = 0 engine steps change nothing. -/
theorem engineRun_of_idle (n : Nat) (h : k.busy = false) : k.engineRun n = .ok k := by
  induction n with
  | zero => rfl
  | succ n ih => simp [Kse.engineRun, Kse.engineStep, h, ih]

/-! ### The step -/

/-- R9, R105: a command write in the host's turn. -/
theorem step_of_writesCommand {v : Word} {rest : List HostOp} (h : s.WritesCommand v rest) :
    step s = executeCommand v (s.afterCommandWrite rest) := by
  obtain ⟨hn, d, hp, rfl⟩ := h
  simp only [step, State.advance, State.takeTurn, hn, State.hostTurn, afterTurn_program, hp]
  rfl

/-- R109: a WAIT's poll leaves KSE as it is. -/
theorem pollStatus_cases {rest : List HostOp} (h : pollStatus rest s = .next t) : t.kse = s.kse ∧ t.sched = s.sched := by
  unfold pollStatus at h
  split at h
  · rename_i u hu
    injection h with h; subst h
    have := hostStep_read_cases hu
    exact ⟨this.1, this.2.2⟩
  · simp at h
  · simp at h

/-- R2, R74, R133, R250: everything a step can do to KSE. -/
theorem step_cases (h : step s = .next t) :
    (s.nextTurn = .engine ∧ s.kse.engineStep = .ok t.kse) ∨
    (s.nextTurn = .reset ∧ t.kse = Kse.reset) ∨
    (s.nextTurn = .host ∧ t.kse = s.kse) ∨
    (s.nextTurn = .host ∧ ∃ off n v, t.kse = s.kse.writeState off n v) ∨
    (s.nextTurn = .host ∧ ∃ r v, t.kse = s.kse.writeReg r v) ∨
    (s.nextTurn = .host ∧
      ∃ v rest, s.WritesCommand v rest ∧ executeCommand v (s.afterCommandWrite rest) = .next t) := by
  rw [step_eq] at h
  cases hn : s.nextTurn with
  | engine =>
    rw [hn] at h
    obtain ⟨k, hk, rfl⟩ := onKse_next_iff.mp h
    exact .inl ⟨rfl, hk⟩
  | reset =>
    rw [hn] at h
    injection h with h; subst h
    exact .inr (.inl ⟨rfl, rfl⟩)
  | host =>
    rw [hn] at h
    simp only [State.takeTurn, State.hostTurn, afterTurn_program] at h
    split at h
    · injection h with h; subst h; exact .inr (.inr (.inl ⟨rfl, rfl⟩))
    · rename_i a rest hp
      cases a with
      | read off n => exact .inr (.inr (.inl ⟨rfl, (hostStep_read_cases h).1⟩))
      | write off n v =>
        rcases hostStep_write_cases h with rfl | rfl | rfl | ⟨r, _, rfl⟩ | ⟨hl, hr, h⟩
        · exact .inr (.inr (.inl ⟨rfl, rfl⟩))
        · exact .inr (.inr (.inl ⟨rfl, rfl⟩))
        · exact .inr (.inr (.inr (.inl ⟨rfl, _, _, _, rfl⟩)))
        · exact .inr (.inr (.inr (.inr (.inl ⟨rfl, _, _, rfl⟩))))
        · obtain ⟨rfl, rfl⟩ := cmd_access hl hr
          exact .inr (.inr (.inr (.inr (.inr ⟨rfl, _, rest, ⟨hn, v, hp, rfl⟩, h⟩))))
    · rename_i rest hp
      exact .inr (.inr (.inl ⟨rfl, (pollStatus_cases h).1⟩))
    · injection h with h; subst h; exact .inr (.inr (.inl ⟨rfl, rfl⟩))

/-- R105: everything a command write can do. -/
theorem executeCommand_kse_cases {v : Word} (h : executeCommand v s = .next t) :
    (s.kse.busy = true ∧ t = { s with kse := s.kse.recordError .busy }) ∨
    (s.kse.busy = false ∧ (∃ e, decodeWord v = .error e) ∧ t = { s with kse := s.kse.recordError .illegal }) ∨
    (s.kse.busy = false ∧ ∃ i, decodeWord v = .ok i ∧ exec i s = .next t) := by
  rcases executeCommand_cases h with ⟨i, hd, h⟩ | ⟨he, h⟩
  · by_cases hb : s.kse.busy = true
    · left
      refine ⟨hb, ?_⟩
      cases i <;> (obtain ⟨k, hk, rfl⟩ := onKse_next_iff.mp h; rw [command_of_busy hb] at hk; cases hk; rfl)
    · exact .inr (.inr ⟨by simpa using hb, i, hd, h⟩)
  · obtain ⟨k, hk, rfl⟩ := onKse_next_iff.mp h
    rcases command_cases hk with ⟨hb, rfl⟩ | ⟨hb, hk⟩
    · exact .inl ⟨hb, rfl⟩
    · cases hk; exact .inr (.inl ⟨hb, he, rfl⟩)

/-- R105: everything each command can do while BUSY = 0. -/
theorem exec_idle_cases {i : Instr} (hb : s.kse.busy = false) (h : exec i s = .next t) :
    ∃ k, t = { s with kse := k } ∧
    ((i = .nop ∧ k = s.kse) ∨ (i = .init ∧ k = s.kse.initEffects) ∨
    (∃ imm, i = .selvar imm ∧ s.kse.selectVariant imm = .ok k) ∨
    (i = .setcfg ∧ s.kse.setConfig = .ok k) ∨
    (∃ imm, i = .absorb imm ∧ Kse.sponge .absorb (Kse.absorbByte imm) s.kse = .ok k) ∨
    (i = .pad ∧ Kse.sponge .absorb Kse.padBlock s.kse = .ok k) ∨
    (i = .squeeze ∧ Kse.sponge .squeeze Kse.squeezeByte s.kse = .ok k) ∨
    (i = .permute ∧ k = s.kse.startPerm false) ∨
    (i = .clrerr ∧ k = { s.kse with err := .noError })) := by
  cases i <;>
    (obtain ⟨k, hk, rfl⟩ := onKse_next_iff.mp h; rw [command_of_idle hb] at hk; refine ⟨k, rfl, ?_⟩; simp_all)

end Sys2Proof.Machine
end

