-- ==== Sys2Proof/Machine/Assembler.lean ====
section
/-! DEFINITION. KSE assembly: the pseudo-instructions' expansions and the text form of a host's program (R108 to R111,
log 13, log 14). -/

namespace Sys2Proof.Machine

/-! ### The lines and their expansions (R109, R110) -/

/-- A line of a KSE program (R108 to R110). -/
inductive Line where
  | command (i : Instr)
  | read (n : Size) (off : Offset)
  | write (n : Size) (off : Offset) (v : Lane)
  | wait
  | absorbs (bs : List Byte)
  | cfg (r c s o : Word)
  | squeezen (n : Nat)
  | rdlane (x y : Fin 5)
  | wrlane (x y : Fin 5) (v : Lane)
  | rddigest
  | hash (sel : Byte) (bs : List Byte)
  deriving DecidableEq, Repr

/-- `WR32 CMD, word` (R108). -/
def opCommand (i : Instr) : HostOp := .access (.write cmdOffset .b4 ((encode i).setWidth 64))

/-- The offset of lane `(x, y)` in the STATE window (R76, R109). -/
def laneOffset (x y : Fin 5) : Offset := BitVec.ofNat 12 (8 * laneIndex x y)

/-- `ABSORBS`: each byte absorbed, then waited for (R109). -/
def opsAbsorb (bs : List Byte) : List HostOp := bs.flatMap fun b => [opCommand (.absorb b), .wait]

/-- R109: the exact expansions. The bounds of `WAIT` and of `RDDIGEST` depend on the machine's state, so their loops
are host operations (log 13). -/
def Line.expand : Line → List HostOp
  | .command i => [opCommand i]
  | .read n off => [.access (.read off n)]
  | .write n off v => [.access (.write off n v)]
  | .wait => [.wait]
  | .absorbs bs => opsAbsorb bs
  | .cfg r c s o =>
    [.access (.write 0x110 .b4 (r.setWidth 64)), .access (.write 0x114 .b4 (c.setWidth 64)),
     .access (.write 0x118 .b4 (s.setWidth 64)), .access (.write 0x11C .b4 (o.setWidth 64)), opCommand .setcfg]
  | .squeezen n =>
    (List.range n).flatMap fun _ => [opCommand .squeeze, .access (.read 0x108 .b4), .wait]
  | .rdlane x y => [.access (.read (laneOffset x y) .b8)]
  | .wrlane x y v => [.access (.write (laneOffset x y) .b8 v)]
  | .rddigest => [.wait, .digest]
  | .hash sel bs => opCommand (.selvar sel) :: opsAbsorb bs ++ [opCommand .pad, .wait]

/-- A program's expansion, line by line. -/
def expandProgram (ls : List Line) : List HostOp := ls.flatMap Line.expand

/-! ### The text form (R108) -/

/-- Why a line does not assemble; no word is emitted then (R108). -/
inductive AsmError where
  | unknownMnemonic
  | wrongOperands
  | badOperand
  deriving DecidableEq, Repr

/-- The single quote. -/
def quote1 : Char := Char.ofNat 39

/-- The double quote. -/
def quote2 : Char := Char.ofNat 34

/-- Where a text stands with respect to its quotes. -/
inductive Quoting where
  /-- Outside quotes. -/
  | outside
  /-- After an opening single quote: the next character is the quoted one, whatever it is. -/
  | single
  /-- After the character in single quotes: the closing quote comes next. -/
  | closing
  /-- Inside a text in double quotes. -/
  | double
  deriving DecidableEq, Repr

/-- The quoting after `c`. DESIGN CHOICE (R108 is silent; log 14): single quotes hold exactly one character, which may be
a quote, a `;` or a comma, so the single quote in single quotes is three single quotes and has the code 39. -/
def quoteAfter : Quoting → Char → Quoting
  | .outside, c => if c = quote1 then .single else if c = quote2 then .double else .outside
  | .single, _ => .closing
  | .closing, _ => .outside
  | .double, c => if c = quote2 then .outside else .double

/-- A comment runs from `;`, outside quotes, to the end of the line (R108, log 14). -/
def stripComment : Quoting → List Char → List Char
  | _, [] => []
  | q, c :: cs => if q = .outside ∧ c = ';' then [] else c :: stripComment (quoteAfter q c) cs

/-- The text split at `sep`, outside quotes; `acc` is the current piece, reversed. -/
def splitText (sep : Char) : Quoting → List Char → List Char → List (List Char)
  | _, acc, [] => [acc.reverse]
  | q, acc, c :: cs =>
    if q = .outside ∧ c = sep then acc.reverse :: splitText sep .outside [] cs
    else splitText sep (quoteAfter q c) (c :: acc) cs

/-- A blank. DESIGN CHOICE (R108 is silent; log 14): the space, the tab and the carriage return, so that a carriage return
before a line feed is dropped with the blanks at the line's end; alone it ends no line. -/
def isBlank (c : Char) : Bool := c = ' ' || c = '\t' || c = '\r'

/-- The text without blanks at its ends. -/
def trimText (cs : List Char) : List Char := ((cs.dropWhile isBlank).reverse.dropWhile isBlank).reverse

/-- The value of a digit, hexadecimal ones included. -/
def digitValue (c : Char) : Option Nat :=
  if '0' ≤ c ∧ c ≤ '9' then some (c.toNat - '0'.toNat)
  else if 'a' ≤ c ∧ c ≤ 'f' then some (c.toNat - 'a'.toNat + 10)
  else if 'A' ≤ c ∧ c ≤ 'F' then some (c.toNat - 'A'.toNat + 10)
  else none

/-- Digits of a base, most significant first. -/
def parseDigits (base : Nat) : Nat → List Char → Option Nat
  | acc, [] => some acc
  | acc, c :: cs =>
    match digitValue c with
    | some d => if d < base then parseDigits base (acc * base + d) cs else none
    | none => none

/-- A number, decimal or `0x` hexadecimal (R108). DESIGN CHOICE (log 14): the prefix's `x` is lower case, the digits
are of either case. -/
def parseNumber : List Char → Option Nat
  | [] => none
  | '0' :: 'x' :: c :: cs => parseDigits 16 0 (c :: cs)
  | c :: cs => parseDigits 10 0 (c :: cs)

/-- A number, or a character in single quotes for its ASCII code (R108). -/
def parseValue (cs : List Char) : Option Nat :=
  match cs with
  | [a, c, b] => if a = quote1 ∧ b = quote1 then (if c.toNat < 128 then some c.toNat else none) else parseNumber cs
  | _ => parseNumber cs

/-- A value below `bound`: a bus offset, a write's data, an operand of CFG, a coordinate, a byte. DESIGN CHOICE (log 14):
a character in single quotes is a value in each of these places, where R108 says it of a command's operand only. -/
def parseBelow (bound : Nat) (cs : List Char) : Option Nat :=
  match parseValue cs with
  | some n => if n < bound then some n else none
  | none => none

/-- A byte operand, 0 to 255 (R108). -/
def parseByte (cs : List Char) : Option Byte := (parseBelow 256 cs).map (BitVec.ofNat 8)

/-- SELVAR's operand: a selector 0 to 3 or a variant's name (R108). -/
def parseSelector (cs : List Char) : Option Byte :=
  match String.ofList cs with
  | "SHA3_224" => some 0
  | "SHA3_256" => some 1
  | "SHA3_384" => some 2
  | "SHA3_512" => some 3
  | _ => (parseBelow 4 cs).map (BitVec.ofNat 8)

/-- The offset of a register name of R46, or a number (R110). DESIGN CHOICE (log 14): R46's name `STATE[0..199]` is
written `STATE` and stands for the window's first offset 0x000; `STATE[i]` is not accepted, byte `i` is the number `i`. -/
def parseOffset (cs : List Char) : Option Offset :=
  match String.ofList cs with
  | "STATE" => some 0x000
  | "CMD" => some 0x100
  | "STATUS" => some 0x104
  | "DOUT" => some 0x108
  | "REMAIN" => some 0x10C
  | "CFG_RATE" => some 0x110
  | "CFG_CAP" => some 0x114
  | "CFG_SUFFIX" => some 0x118
  | "CFG_OUTLEN" => some 0x11C
  | "ACTCFG" => some 0x120
  | "ACTOUTLEN" => some 0x124
  | "SEQDBG" => some 0x128
  | "PERMCNT" => some 0x12C
  | _ => (parseBelow 4096 cs).map (BitVec.ofNat 12)

/-- The ASCII bytes of a text in double quotes, without a terminator (R109). DESIGN CHOICE (log 14): a character beyond
ASCII, or a double quote inside the text, is an assembly error. -/
def parseText (cs : List Char) : Option (List Byte) :=
  match cs with
  | [] => none
  | q :: rest =>
    match rest.reverse with
    | [] => none
    | r :: mid =>
      if q = quote2 ∧ r = quote2 ∧ mid.all (fun c => c.toNat < 128 && c != quote2) then
        some (mid.reverse.map fun c => BitVec.ofNat 8 c.toNat)
      else none

/-- The bytes of `ABSORBS`: one text in double quotes, or a list of bytes (R109). DESIGN CHOICE (log 14): R109 writes
`b0, ..., bk-1` and does not say whether k may be 0; `ABSORBS` with no operand is legal here, like `ABSORBS` of the empty
text: it expands to no operation, without an assembly error. -/
def parseBytes (ops : List (List Char)) : Option (List Byte) :=
  match ops with
  | [t] =>
    match parseText t with
    | some bs => some bs
    | none => [t].mapM parseByte
  | _ => ops.mapM parseByte

/-- A coordinate 0 to 4. -/
def parseCoord (cs : List Char) : Option (Fin 5) := (parseBelow 5 cs).map (Fin.ofNat 5)

/-- A 32-bit value. -/
def parseWord (cs : List Char) : Option Word := (parseBelow (2 ^ 32) cs).map (BitVec.ofNat 32)

/-- The data of a write of `n` bytes. -/
def parseData (n : Size) (cs : List Char) : Option Lane :=
  (parseBelow (2 ^ (8 * n.bytes)) cs).map (BitVec.ofNat 64)

/-- A parsed operand, or an assembly error (R108). -/
def need {α : Type} (o : Option α) : Except AsmError α :=
  match o with
  | some a => .ok a
  | none => .error .badOperand

/-- A line without operands. -/
def noOperands (ops : List (List Char)) (l : Line) : Except AsmError Line :=
  if ops = [] then .ok l else .error .wrongOperands

/-- A bus read's line (R110). -/
def readLine (n : Size) (ops : List (List Char)) : Except AsmError Line :=
  match ops with
  | [o] => need ((parseOffset o).map (.read n))
  | _ => .error .wrongOperands

/-- A bus write's line (R110). -/
def writeLine (n : Size) (ops : List (List Char)) : Except AsmError Line :=
  match ops with
  | [o, v] => need ((parseOffset o).bind fun off => (parseData n v).map (.write n off))
  | _ => .error .wrongOperands

/-- A line from its mnemonic and its operands (R108 to R110). DESIGN CHOICE (log 14): SQUEEZEN's count is any number, 0
included. -/
def parseMnemonic (m : String) (ops : List (List Char)) : Except AsmError Line :=
  match m with
  | "NOP" => noOperands ops (.command .nop)
  | "INIT" => noOperands ops (.command .init)
  | "SETCFG" => noOperands ops (.command .setcfg)
  | "PAD" => noOperands ops (.command .pad)
  | "SQUEEZE" => noOperands ops (.command .squeeze)
  | "PERMUTE" => noOperands ops (.command .permute)
  | "CLRERR" => noOperands ops (.command .clrerr)
  | "SELVAR" =>
    match ops with
    | [o] => need ((parseSelector o).map fun s => .command (.selvar s))
    | _ => .error .wrongOperands
  | "ABSORB" =>
    match ops with
    | [o] => need ((parseByte o).map fun b => .command (.absorb b))
    | _ => .error .wrongOperands
  | "RD8" => readLine .b1 ops
  | "RD16" => readLine .b2 ops
  | "RD32" => readLine .b4 ops
  | "RD64" => readLine .b8 ops
  | "WR8" => writeLine .b1 ops
  | "WR16" => writeLine .b2 ops
  | "WR32" => writeLine .b4 ops
  | "WR64" => writeLine .b8 ops
  | "WAIT" => noOperands ops .wait
  | "RDDIGEST" => noOperands ops .rddigest
  | "ABSORBS" => need ((parseBytes ops).map .absorbs)
  | "CFG" =>
    match ops.mapM parseWord with
    | some [r, c, s, o] => .ok (.cfg r c s o)
    | some _ => .error .wrongOperands
    | none => .error .badOperand
  | "SQUEEZEN" =>
    match ops with
    | [o] => need ((parseNumber o).map .squeezen)
    | _ => .error .wrongOperands
  | "RDLANE" =>
    match ops with
    | [x, y] => need ((parseCoord x).bind fun x => (parseCoord y).map (.rdlane x))
    | _ => .error .wrongOperands
  | "WRLANE" =>
    match ops with
    | [x, y, v] =>
      need ((parseCoord x).bind fun x => (parseCoord y).bind fun y => (parseData .b8 v).map (.wrlane x y))
    | _ => .error .wrongOperands
  | "HASH" =>
    match ops with
    | [s, t] => need ((parseSelector s).bind fun s => (parseText t).map (.hash s))
    | _ => .error .wrongOperands
  | _ => .error .unknownMnemonic

/-- One line of text; `none` where it holds no line (blank, or a comment alone). -/
def parseLine (text : List Char) : Except AsmError (Option Line) :=
  let body := trimText (stripComment .outside text)
  let rest := trimText (body.dropWhile fun c => !isBlank c)
  if body = [] then .ok none
  else
    match parseMnemonic (String.ofList (body.takeWhile fun c => !isBlank c))
        (if rest = [] then [] else (splitText ',' .outside [] rest).map trimText) with
    | .ok l => .ok (some l)
    | .error e => .error e

/-- The lines of a program's text; the first error, if there is one. DESIGN CHOICE (log 14): one line in error refuses
the whole text. -/
def parseLines : List (List Char) → Except AsmError (List Line)
  | [] => .ok []
  | t :: ts =>
    match parseLine t, parseLines ts with
    | .error e, _ => .error e
    | _, .error e => .error e
    | .ok none, .ok ls => .ok ls
    | .ok (some l), .ok ls => .ok (l :: ls)

/-- The text at the line breaks. DESIGN CHOICE (R108 says only that a program is a text of lines; log 14): the line feed
(code 10) ends a line and no other character does, inside quotes too; the last line needs none. -/
def splitLines (cs : List Char) : List (List Char) := cs.splitOn '\n'

/-- The host operations a program's text assembles to (R108). -/
def assemble (text : List Char) : Except AsmError (List HostOp) :=
  match parseLines (splitLines text) with
  | .ok ls => .ok (expandProgram ls)
  | .error e => .error e

end Sys2Proof.Machine
end

