-- ==== Sys2Proof/Tests/Slice0.lean ====
section
/-! SUPPORT. Tests and witnesses. Expected values are the spec's: 30_encoding.md R111 and the vectors `V-…` and programs
`P…` of 95_test_vectors.md. A theorem `witness_<Statement>…` shows a state and operands that meet the hypotheses of that
statement. -/

open Sys2Proof Sys2Proof.Machine

namespace Sys2Proof.Tests

/-! ### Helpers -/

/-- The machine in KSE state `k`, nothing else going on. -/
def machine (k : Kse) : State := { State.reset with kse := k }

/-- KSE with an active configuration, in phase ABSORB at POS 0. -/
def active (rate cap suffix : Byte) (outlen : Half) : Kse := Kse.reset.loadVariant ⟨outlen, rate, cap, suffix⟩

/-- KSE with a staged configuration. -/
def staging (rate cap suffix : Byte) (outlen : Half) (k : Kse) : Kse :=
  { k with cfgRate := rate, cfgCap := cap, cfgSuffix := suffix, cfgOutlen := outlen }

/-- SHA3-256 selected. -/
def sha256 : Kse := active 136 64 0x06 32

/-- A permutation running after `n` rounds, with the LFSR those rounds leave (R127). -/
def running (n : Nat) (k : Kse) : Kse := { k.startPerm false with rnd := BitVec.ofNat 5 n, lfsr := lfsrAfter n }

/-- The KSE state after an outcome. -/
def kseOf (o : Host.Outcome State Fault Refusal) : Option Kse :=
  match o with
  | .next t => some t.kse
  | _ => none

/-- One step in which the host writes the word `v` to CMD. -/
def command (v : Word) (k : Kse) : Option Kse := kseOf (step ((machine k).issueCommand v))

/-- The response of one bus transaction. -/
def respond (a : Access) (k : Kse) : Option Response :=
  match hostStep a (machine k) with
  | .next t => t.response
  | _ => none

/-- KSE after one bus transaction. -/
def access (a : Access) (k : Kse) : Option Kse := kseOf (hostStep a (machine k))

/-! ### Well-formedness -/

theorem test_wellFormed_selector : (Instr.selvar 3).wellFormed = true ∧ (Instr.selvar 4).wellFormed = false := by decide
theorem test_wellFormed_others :
    ([.nop, .init, .setcfg, .absorb 0xFF, .pad, .squeeze, .permute, .clrerr] : List Instr).all Instr.wellFormed = true := by
  decide
/-- The ill-formed term's own word is refused by the decoder. -/
theorem test_illFormed_word_refused : decodeTableWord 32 (encode (.selvar 4)).toNat = none := by decide

/-! ### Decoding (R111, written out bit by bit: RSV 16 bits, IMM 8 bits, OP 8 bits) -/

theorem test_decode_nop : decodeTableWord 32 0b0000000000000000_00000000_00000000 = some .nop := by decide
theorem test_decode_init : decodeTableWord 32 0b0000000000000000_00000000_00000001 = some .init := by decide
theorem test_decode_selvar : decodeTableWord 32 0b0000000000000000_00000011_00000010 = some (.selvar 3) := by decide
theorem test_decode_setcfg : decodeTableWord 32 0b0000000000000000_00000000_00000011 = some .setcfg := by decide
theorem test_decode_absorb : decodeTableWord 32 0b0000000000000000_01100001_00000100 = some (.absorb 0x61) := by decide
theorem test_decode_pad : decodeTableWord 32 0b0000000000000000_00000000_00000101 = some .pad := by decide
theorem test_decode_squeeze : decodeTableWord 32 0b0000000000000000_00000000_00000110 = some .squeeze := by decide
theorem test_decode_permute : decodeTableWord 32 0b0000000000000000_00000000_00000111 = some .permute := by decide
theorem test_decode_clrerr : decodeTableWord 32 0b0000000000000000_00000000_00001000 = some .clrerr := by decide
theorem test_decode_illegal :
    decodeWord 0x00000009 = .error .illegalOpcode ∧ decodeWord 0x000000FF = .error .illegalOpcode ∧
    decodeWord 0x00000402 = .error .selectorOutOfRange ∧ decodeWord 0x00000105 = .error .immediateNotZero ∧
    decodeWord 0x00010004 = .error .reservedNotZero := by decide
theorem test_step_runs_first_command :
    step (State.reset.withFetchWord 32 0x6104) = exec (.absorb 0x61) { State.reset with response := some .writeOk } := rfl

/-! ### Lanes, the four steps, the LFSR, the round -/

/-- V-ROL-1 to V-ROL-8. -/
theorem test_rotl64 :
    rotl64 0x0123456789ABCDEF 0 = 0x0123456789ABCDEF ∧ rotl64 0x0123456789ABCDEF 4 = 0x123456789ABCDEF0 ∧
    rotl64 0x0123456789ABCDEF 32 = 0x89ABCDEF01234567 ∧ rotl64 0x0123456789ABCDEF 64 = 0x0123456789ABCDEF ∧
    rotl64 0x0123456789ABCDEF 300 = 0xBCDEF0123456789A ∧ rotl64 1 63 = 0x8000000000000000 ∧
    rotl64 0x8000000000000001 1 = 3 := by decide

/-- The state of V-COD-1: `S.byte[i] = i`. -/
def counting : StateReg := (List.range 200).foldl (fun S i => setByte S i (BitVec.ofNat 8 i)) 0

/-- V-COD-1. -/
theorem test_lane_codec :
    toLanes counting 0 0 = 0x0706050403020100 ∧ toLanes counting 1 0 = 0x0F0E0D0C0B0A0908 ∧
    toLanes counting 0 1 = 0x2F2E2D2C2B2A2928 ∧ toLanes counting 4 4 = 0xC7C6C5C4C3C2C1C0 ∧
    fromLanes (toLanes counting) = counting := by decide +kernel

/-- The input of V-STP-1 to V-STP-4: lane (0,0) is 1, every other lane 0. -/
def unitLanes : Lanes := setLane (fun _ _ => 0) 0 0 1

/-- Row `y` of a lane array. -/
def row (A : Lanes) (y : Fin 5) : List Lane := [A 0 y, A 1 y, A 2 y, A 3 y, A 4 y]

/-- V-STP-1. -/
theorem test_theta : row (theta unitLanes) 0 = [1, 1, 0, 0, 2] ∧ row (theta unitLanes) 3 = [0, 1, 0, 0, 2] := by decide
/-- V-STP-7, lane (x, y) = x + 5y + 1. -/
theorem test_rhoPi :
    row (rhoPi fun x y => BitVec.ofNat 64 (x.val + 5 * y.val + 1)) 1 =
      [0x40000000, 0xA00000, 0x58, 0x2200000000000, 0xE000000000000002] ∧
    row (rhoPi fun x y => BitVec.ofNat 64 (x.val + 5 * y.val + 1)) 4 =
      [0xC000000000000000, 0x480000000000000, 0x78000000000, 0x200000000000, 0x58] := by decide +kernel
/-- V-STP-9 and V-STP-10. -/
theorem test_chi :
    row (chi fun x _ => if x = 0 then 0xFFFFFFFFFFFFFFFF else 0) 2 =
      [0xFFFFFFFFFFFFFFFF, 0, 0, 0xFFFFFFFFFFFFFFFF, 0] ∧
    row (chi fun x _ => if x = 0 then 1 else if x = 1 then 0x0000100000000000 else if x = 4 then 0x8000 else 0) 0 =
      [1, 0x0000100000000000, 0x8000, 1, 0x0000100000008000] := by decide
/-- V-LFS-1 to V-LFS-4. -/
theorem test_lfsrStep :
    lfsrStep 0x40 = 0x80 ∧ lfsrStep 0x80 = 0x71 ∧ lfsrStep 0x71 = 0xE2 ∧ lfsrStep 0xFF = 0x8F ∧ lfsrStep 0x8E = 0x6D := by
  decide
/-- V-LFS-6. -/
theorem test_lfsr_after_permutation : lfsrAfter 24 = 0x8E := by decide +kernel
/-- V-LFS-8, rounds 1 and 23. -/
theorem test_iota :
    (iota (fun _ _ => 0) 0x80).1 0 0 = 0x8082 ∧ (iota (fun _ _ => 0) 0x80).2 = 0xD8 ∧
    (iota (fun _ _ => 0) 0x44).1 0 0 = 0x8000000080008008 ∧ (iota (fun _ _ => 0) 0x44).2 = 0x8E := by decide
/-- V-RND-2: the second engine step of a permutation of the zero state. -/
theorem test_engine_round :
    (kseOf ((machine (running 1 { Kse.reset with sreg := 1 })).onKse Kse.engineStep)).map
        (fun k => (toLanes k.sreg 0 0, row (toLanes k.sreg) 2, k.lfsr, k.rnd, k.busy)) =
      some (0x8083, [2, 0x200, 0, 0x202, 0], 0xD8, 2, true) := by decide +kernel

/-! ### One command from a small state -/

/-- V-CTL-5. -/
theorem test_nop : command 0x00000000 Kse.reset = some Kse.reset := by decide +kernel
/-- V-ERR-8. -/
theorem test_nop_busy : (command 0x00000000 (sha256.startPerm false)).map Kse.statusWord = some 0x00000023 := by decide
/-- V-CTL-6: INIT keeps the configuration and the sequencer. -/
theorem test_init :
    (command 0x00000001 { sha256 with sreg := 7, phase := .done, pos := 32, dout := 0x32, rnd := 24, lfsr := 0x8E, permcnt := 1 }).map
      (fun k => (k.statusWord, k.sreg, k.permcnt, k.dout, k.actcfgWord, k.seqdbgWord)) =
      some (0x00000002, 0, 0, 0, 0x00064088, 0x00008E18) := by decide +kernel
/-- V-CTL-7. -/
theorem test_init_unconfigured : (command 0x00000001 Kse.reset).map Kse.statusWord = some 0x00000000 := by decide
/-- V-CTL-1 to V-CTL-4. -/
theorem test_selvar :
    ([0x00000002, 0x00000102, 0x00000202, 0x00000302] : List Word).map
        (fun v => (command v Kse.reset).map fun k => (k.actcfgWord, k.outlen, k.statusWord)) =
      [some (0x00063890, 0x1C, 2), some (0x00064088, 0x20, 2), some (0x00066068, 0x30, 2), some (0x00068048, 0x40, 2)] := by
  decide +kernel
/-- V-ERR-6: selector 4 is illegal and ACTCFG stays. -/
theorem test_selvar_illegal :
    (command 0x00000402 sha256).map (fun k => (k.statusWord, k.actcfgWord)) = some (0x00000012, 0x00064088) := by decide
/-- V-CTL-8 to V-CTL-13. -/
theorem test_setcfg :
    [staging 1 199 6 1 Kse.reset, staging 199 1 6 65535 Kse.reset, staging 0 200 6 32 Kse.reset, staging 200 0 6 32 Kse.reset,
        staging 136 63 6 32 Kse.reset, staging 100 100 6 0 Kse.reset].map
        (fun k => (command 0x00000003 k).map Kse.statusWord) =
      [some 0x02, some 0x02, some 0x50, some 0x50, some 0x50, some 0x50] := by decide +kernel
/-- V-CTL-14: a failed SETCFG unconfigures and keeps S. -/
theorem test_setcfg_fails :
    (command 0x00000003 { sha256 with sreg := 0x61, pos := 1 }).map (fun k => (k.statusWord, k.actcfgWord, byteOf k.sreg 0)) =
      some (0x00000050, 0, 0x61) := by decide +kernel
/-- P1, `ABSORB 'b'`. -/
theorem test_absorb :
    (command 0x00006204 { sha256 with sreg := 0x61, pos := 1 }).map
      (fun k => (k.statusWord, byteOf k.sreg 0, byteOf k.sreg 1)) = some (0x00000202, 0x61, 0x62) := by decide +kernel
/-- V-SPG-10: the byte that fills the block. -/
theorem test_absorb_fills :
    (command 0x00000004 { sha256 with pos := 135 }).map Kse.statusWord = some 0x00000003 := by decide +kernel
/-- P1, PAD after "abc". -/
theorem test_pad :
    (command 0x00000005 { sha256 with sreg := 0x636261, pos := 3 }).map
      (fun k => (byteOf k.sreg 3, byteOf k.sreg 135, k.statusWord, k.remain)) = some (0x06, 0x80, 0x00000007, 32) := by
  decide +kernel
/-- P5, the collision case at RATE 1. -/
theorem test_pad_collision :
    (command 0x00000005 (active 1 199 0x86 2)).map (fun k => (k.sreg, k.statusWord, k.remain, k.seqdbgWord)) =
      some (0x86, 0x00000007, 2, 0x00010100) := by decide +kernel
/-- P1, the first SQUEEZE. -/
theorem test_squeeze :
    (command 0x00000006 { sha256 with sreg := 0xB225E24FA75D983A, phase := .squeeze, remain := 32 }).map
      (fun k => (k.dout, k.statusWord, k.remain)) = some (0x3A, 0x00000106, 31) := by decide +kernel
/-- P3, the SQUEEZE that ends a block, and the last one. -/
theorem test_squeeze_ends :
    (command 0x00000006 { active 2 198 6 3 with sreg := 0x2EFD, phase := .squeeze, pos := 1, remain := 2 }).map
        (fun k => (k.dout, k.statusWord)) = some (0x2E, 0x00000007) ∧
    (command 0x00000006 { active 2 198 6 3 with sreg := 0x0D, phase := .squeeze, remain := 1 }).map
        (fun k => (k.dout, k.statusWord)) = some (0x0D, 0x0000010A) := by decide +kernel
/-- P2. -/
theorem test_permute :
    (command 0x00000007 Kse.reset).map (fun k => (k.statusWord, k.seqdbgWord, k.permcnt)) = some (1, 0x00000100, 0) := by
  decide
/-- V-ERR-13: PERMUTE is not poisoned. -/
theorem test_permute_poisoned : (command 0x00000007 { sha256 with err := .phase }).map Kse.statusWord = some 0x33 := by decide
/-- V-CTL-15. -/
theorem test_clrerr : command 0x00000008 { sha256 with err := .phase } = some sha256 := by decide +kernel
/-- P6: CLRERR resumes in phase SQUEEZE. -/
theorem test_clrerr_squeeze :
    (command 0x00000008 { sha256 with phase := .squeeze, remain := 32, err := .busy }).map Kse.statusWord = some 0x06 := by
  decide
/-- V-ERR-1 to V-ERR-5, V-ERR-7, V-ERR-11, V-ERR-12. -/
theorem test_errors :
    [command 4 Kse.reset, command 6 Kse.reset, command 6 sha256, command 5 { sha256 with phase := .squeeze, remain := 32 },
        command 9 sha256, command 0x10004 { sha256 with pos := 1 }, command 0xFF { sha256 with err := .phase },
        command 0x6104 { sha256 with err := .phase }].map (fun o => o.map Kse.statusWord) =
      [some 0x40, some 0x40, some 0x32, some 0x36, some 0x12, some 0x112, some 0x32, some 0x32] := by decide +kernel
/-- V-ERR-9: BUSY before ILLEGAL. -/
theorem test_busy_before_illegal :
    (command 9 { sha256.startPerm false with phase := .squeeze }).map Kse.statusWord = some 0x27 := by decide

/-! ### The bus -/

/-- V-COD-3. -/
theorem test_state_window :
    (access (.write 0x000 .b8 0x1122334455667788) Kse.reset).map
        (fun k => (byteOf k.sreg 0, byteOf k.sreg 7, respond (.read 0x000 .b1) k, respond (.read 0x004 .b4) k)) =
      some (0x88, 0x11, some (.readOk 0x88), some (.readOk 0x11223344)) := by decide +kernel
/-- V-BUS-3 to V-BUS-5, V-BUS-8 to V-BUS-11, on a state after a permutation with the last lane of V-PERM-1. -/
theorem test_bus_reads :
    ([(0x0C6, .b2), (0x0C8, .b8), (0x0F8, .b8), (0x100, .b4), (0x104, .b4), (0x128, .b4), (0x12C, .b4)] : List (Offset × Size)).map
        (fun p => respond (.read p.1 p.2)
          { Kse.reset with
            sreg := fromLanes (setLane (fun _ _ => 0) 4 4 0xEAF1FF7B5CECA249), rnd := 24, lfsr := 0x8E, permcnt := 1 }) =
      [some (.readOk 0xEAF1), some (.readOk 0), some (.readOk 0), some (.readOk 0), some (.readOk 0),
        some (.readOk 0x00008E18), some (.readOk 1)] := by decide +kernel
/-- V-BUS-2, V-BUS-6, V-BUS-7, V-BUS-14: the accesses that get the ERROR response. -/
theorem test_bus_errors :
    legalAccess 0x004 .b8 = false ∧ legalAccess 0x100 .b8 = false ∧ legalAccess 0x102 .b4 = false ∧
    respond (.write 0x100 .b2 0x0007) Kse.reset = some .writeError ∧
    access (.write 0x100 .b2 0x0007) Kse.reset = some Kse.reset := by decide +kernel
/-- V-BUS-12, V-BUS-13, V-CTL-16. -/
theorem test_bus_writes :
    access (.write 0x104 .b4 0xFFFFFFFF) Kse.reset = some Kse.reset ∧
    access (.write 0x130 .b1 0x55) Kse.reset = some Kse.reset ∧
    (access (.write 0x11C .b4 0x12340040) sha256).map Kse.cfgOutlen = some 0x40 := by decide +kernel
/-- V-ERR-10: a STATE write while BUSY = 1. -/
theorem test_state_write_busy :
    (access (.write 0x000 .b1 0xFF) { sha256.startPerm false with phase := .squeeze }).map (fun k => (k.statusWord, k.sreg)) =
      some (0x27, 0) := by decide +kernel
/-- V-RST-1 to V-RST-4. -/
theorem test_reset_while_busy :
    (kseOf (step { machine (running 3 { sha256 with sreg := 5 }) with sched := [.reset] })).map
        (fun k => (k.statusWord, k.seqdbgWord, k.actcfgWord, k.sreg)) = some (0, 0x00000100, 0, 0) := by decide +kernel

/-! ### The assembler (R108 to R110) -/

theorem test_assemble_commands :
    assemble "SELVAR SHA3_256 ; pick\nABSORB 'a'\n\nWAIT".toList =
      .ok [.access (.write 0x100 .b4 0x102), .access (.write 0x100 .b4 0x6104), .wait] := by rfl
/-- P3, first line. -/
theorem test_assemble_cfg :
    assemble "CFG 2, 198, 6, 3".toList =
      .ok [.access (.write 0x110 .b4 2), .access (.write 0x114 .b4 198), .access (.write 0x118 .b4 6),
        .access (.write 0x11C .b4 3), .access (.write 0x100 .b4 3)] := by rfl
theorem test_assemble_lanes :
    assemble "RDLANE 4, 4\nWR8 0x000, 0xFF".toList =
      .ok [.access (.read 0x0C0 .b8), .access (.write 0x000 .b1 0xFF)] := by rfl
/-- Log 14: the single quote in single quotes, before a comment and before a comma. -/
theorem test_assemble_quotes :
    assemble "ABSORB ''' ; quote".toList = .ok [.access (.write 0x100 .b4 0x2704)] ∧
    assemble "ABSORBS ''', ';'".toList =
      .ok [.access (.write 0x100 .b4 0x2704), .wait, .access (.write 0x100 .b4 0x3B04), .wait] := ⟨by rfl, by rfl⟩
theorem test_assemble_rddigest : assemble "RDDIGEST".toList = .ok [.wait, .digest] := by rfl
/-- R109, R29: SETCFG made OUTLEN 3 active, CFG_OUTLEN has been staged again since: RDDIGEST reads 3 bytes. -/
theorem test_rddigest_reads_active_outlen :
    (match step { machine { active 2 198 0x06 3 with cfgOutlen := 7 } with program := [.digest, .wait] } with
      | .next t => t.program
      | _ => []) =
      [.access (.read 0x000 .b1), .access (.read 0x001 .b1), .access (.read 0x002 .b1), .wait] := by decide +kernel
/-- Log 14: ABSORBS with no operand. -/
theorem test_assemble_absorbs_none : assemble "ABSORBS".toList = .ok [] ∧ assemble "ABSORBS 256".toList = .error .badOperand :=
  ⟨by rfl, by rfl⟩
/-- Log 14: a carriage return before a line feed is a blank at the line's end, one alone ends no line; an empty operand,
an open quote and a count of 0. -/
theorem test_assemble_line_ends :
    assemble "PAD\r\nWAIT\r\n".toList = .ok [.access (.write 0x100 .b4 5), .wait] ∧
    assemble "PAD\rWAIT".toList = .error .wrongOperands ∧ assemble "ABSORBS 1,".toList = .error .badOperand ∧
    assemble "ABSORBS \"a\nb\"".toList = .error .badOperand ∧ assemble "SQUEEZEN 0".toList = .ok [] :=
  ⟨by rfl, by rfl, by rfl, by rfl, by rfl⟩
theorem test_assemble_refuses :
    assemble "SELVAR 4".toList = .error .badOperand ∧ assemble "PAD 1".toList = .error .wrongOperands ∧
    assemble "HALT".toList = .error .unknownMnemonic := by refine ⟨by rfl, by rfl, by rfl⟩

/-! ### Witnesses: the hypotheses of each statement can be met -/

/-- The invariant of a small configured state, for the witnesses that need one. -/
theorem inv_of {k : Kse} (h : k.ConfigInv ∧ k.ControllerInv ∧ k.PosInv ∧ k.SequencerInv) : k.Inv :=
  ⟨h.1, h.2.1, h.2.2.1, h.2.2.2⟩

/-- SHA3-256, in phase SQUEEZE with `n` bytes remaining. -/
def squeezing (n : Half) : Kse := { sha256 with phase := .squeeze, remain := n }

theorem witness_DecodeOfEncode : (Instr.selvar 0).wellFormed = true ∧ (Instr.selvar 3).wellFormed = true := by decide
theorem witness_EncodeOfDecode : decodeWord 0x0000FF04 = .ok (.absorb 0xFF) := by decide
theorem witness_DecoderAgreesWithOpcodeTable :
    decodeWord 0x00000302 = .ok (.selvar 3) ∧ ∃ r ∈ opcodeTable, r.matchesWord 0x00000302 = true := by decide
theorem witness_StepRunsTheDecodedCommand :
    (State.reset.issueCommand 0x00000006).WritesCommand 0x00000006 [] ∧ decodeWord 0x00000006 = .ok .squeeze ∧
    decodeTableWord 32 6 = some .squeeze := ⟨⟨rfl, 0x00000006, rfl, by decide⟩, by decide, by decide⟩
theorem witness_StepTakesTheNextTurn_empty :
    State.reset.sched = [] ∧ State.reset.nextTurn = .host ∧ State.reset.program = [] := by decide
theorem witness_StepTakesTheNextTurn_busy : (machine (running 0 sha256)).nextTurn = .engine := by decide +kernel
theorem witness_StepTakesTheNextTurn_reset :
    ({ State.reset with sched := [.reset, .host] } : State).nextTurn = .reset := by decide
theorem witness_StepTakesTheNextTurn_access :
    (State.reset.issueCommand 5).nextTurn = .host ∧
    (State.reset.issueCommand 5).program = .access (.write 0x100 .b4 5) :: [] := by decide
theorem witness_StepTakesTheNextTurn_digest :
    ({ machine sha256 with program := [.digest] } : State).nextTurn = .host ∧
    ({ State.reset with program := [.digest, .wait] } : State).nextTurn = .host := by decide
theorem witness_IllegalWordIsRecorded :
    (0xFFFF0000#32).extractLsb' 16 16 ≠ 0 ∧ 0x08 < ((0x00000009#32).extractLsb' 0 8).toNat ∧
    ((0x00000105#32).extractLsb' 8 8 ≠ 0 ∧ (0x00000105#32).extractLsb' 0 8 ≠ 0x02 ∧
      (0x00000105#32).extractLsb' 0 8 ≠ 0x04) ∧
    ((0x00000402#32).extractLsb' 0 8 = 0x02 ∧ 3 < ((0x00000402#32).extractLsb' 8 8).toNat) := by decide
theorem witness_BusyRejectsEveryCommand : (machine (running 23 sha256)).kse.busy = true := rfl
theorem witness_FirstErrorIsKept : sha256.err = .noError ∧ ({ sha256 with err := .config } : Kse).err ≠ .noError := by
  decide
theorem witness_SpongeGateOrder_nocfg : Kse.reset.busy = false ∧ Kse.reset.configured = false := by decide
theorem witness_SpongeGateOrder_phase :
    sha256.busy = false ∧ sha256.configured = true ∧ sha256.phase ≠ .squeeze ∧ (squeezing 1).phase ≠ .absorb := by decide
theorem witness_SpongeGateOrder_poisoned :
    ({ sha256 with err := .phase } : Kse).configured = true ∧ ({ sha256 with err := .phase } : Kse).phase = .absorb ∧
    ({ sha256 with err := .phase } : Kse).err ≠ .noError := by decide
/-- NOP, INIT, SELVAR, SETCFG, CLRERR and PERMUTE complete wherever BUSY = 0. -/
theorem witness_NopInitSelvarSetcfgClrerrPermuteComplete :
    State.reset.kse.busy = false ∧ (machine (squeezing 1)).kse.busy = false ∧ 3 < (4#8).toNat := by decide
theorem witness_SetcfgCompletes :
    (staging 1 199 6 1 Kse.reset).staged.valid = true ∧ (staging 199 1 6 65535 Kse.reset).staged.valid = true ∧
    (staging 0 200 6 1 Kse.reset).staged.valid = false ∧ (staging 200 0 6 1 Kse.reset).staged.valid = false ∧
    (staging 100 99 6 1 Kse.reset).staged.valid = false ∧ (staging 100 100 6 0 Kse.reset).staged.valid = false := by decide
theorem witness_AbsorbCompletes :
    (machine sha256).kse.Open .absorb ∧ (machine sha256).kse.pos.toNat < 200 ∧
    (machine { sha256 with pos := 135 }).kse.Open .absorb ∧ (machine { sha256 with pos := 135 }).kse.pos.toNat < 200 ∧
    (135#8) + 1 = sha256.rate := ⟨⟨rfl, rfl, rfl, rfl⟩, by decide, ⟨rfl, rfl, rfl, rfl⟩, by decide, by decide⟩
theorem witness_PadCompletes :
    (active 199 1 0x06 1).Open .absorb ∧ (active 1 199 0x86 1).Open .absorb ∧
    (false = true ↔ (active 199 1 0x06 1).suffix &&& 0x80 ≠ 0 ∧
      (active 199 1 0x06 1).pos.toNat = (active 199 1 0x06 1).rate.toNat - 1) ∧
    (true = true ↔ (active 1 199 0x86 1).suffix &&& 0x80 ≠ 0 ∧
      (active 1 199 0x86 1).pos.toNat = (active 1 199 0x86 1).rate.toNat - 1) :=
  ⟨⟨rfl, rfl, rfl, rfl⟩, ⟨rfl, rfl, rfl, rfl⟩, by decide, by decide⟩
theorem witness_SqueezeCompletes :
    (squeezing 1).Open .squeeze ∧ (squeezing 1).remain - 1 = 0 ∧ ({ squeezing 2 with pos := 135 } : Kse).Open .squeeze ∧
    ({ squeezing 2 with pos := 135 } : Kse).pos + 1 = sha256.rate ∧ (squeezing 2).Open .squeeze ∧
    (squeezing 2).pos + 1 ≠ sha256.rate :=
  ⟨⟨rfl, rfl, rfl, rfl⟩, by decide, ⟨rfl, rfl, rfl, rfl⟩, by decide, ⟨rfl, rfl, rfl, rfl⟩, by decide⟩
theorem witness_ControlCommandFrame :
    (kseOf (exec .nop State.reset)).isSome = true ∧ (kseOf (exec .clrerr State.reset)).isSome = true ∧
    (kseOf (exec .init State.reset)).isSome = true ∧ (kseOf (exec (.selvar 3) State.reset)).isSome = true ∧
    (kseOf (exec .setcfg State.reset)).isSome = true ∧
    (kseOf (exec .setcfg (machine (staging 1 199 6 1 Kse.reset)))).isSome = true := by decide
theorem witness_SpongeAndPermuteFrame :
    (kseOf (exec (.absorb 0x61) (machine sha256))).isSome = true ∧ (kseOf (exec .pad (machine sha256))).isSome = true ∧
    (kseOf (exec .squeeze (machine (squeezing 1)))).isSome = true ∧
    (kseOf (exec .permute State.reset)).isSome = true := by decide +kernel
theorem witness_CapacityIsUntouched :
    (machine sha256).kse.Inv ∧ (kseOf (exec .pad (machine sha256))).isSome = true ∧ sha256.rate.toNat ≤ 136 :=
  ⟨inv_of (by decide +kernel), by decide +kernel, by decide⟩
/-- Rows 0 and 1 all ones, the others zero. -/
def twoRows : Lanes := fun _ y => if y.val < 2 then 0xFFFFFFFFFFFFFFFF else 0
theorem witness_ThetaAndChiBitByBit :
    (∀ x, twoRows x 0 ^^^ twoRows x 1 ^^^ twoRows x 2 ^^^ twoRows x 3 ^^^ twoRows x 4 = 0) ∧
    (∀ x, twoRows x 2 = 0) ∧ (∀ x, twoRows x 0 = 0xFFFFFFFFFFFFFFFF) := by decide
theorem witness_EngineStepPerformsOneRound_idle : Kse.reset.busy = false := rfl
theorem witness_EngineStepPerformsOneRound_round :
    (running 0 sha256).busy = true ∧ (running 0 sha256).rnd + 1 ≠ 24 ∧ (running 22 sha256).rnd + 1 ≠ 24 := by decide
theorem witness_EngineStepPerformsOneRound_last :
    (running 23 sha256).busy = true ∧ (running 23 sha256).rnd + 1 = 24 ∧ (running 23 sha256).cont = false := by decide
theorem witness_EngineStepPerformsOneRound_collision :
    ({ running 23 (active 1 199 0x86 1) with cont := true } : Kse).rnd + 1 = 24 ∧
    1 ≤ (running 23 (active 1 199 0x86 1)).rate.toNat ∧ (running 23 (active 199 1 0x86 1)).rate.toNat ≤ 199 := by decide
theorem witness_CollisionTakesFortyEightSteps (S : StateReg) :
    1 ≤ (active 1 199 0x86 1).rate.toNat ∧ (active 199 1 0x86 1).rate.toNat ≤ 199 ∧
    ∀ j < 200, byteOf (setByte S 198 (byteOf S 198 ^^^ 0x80)) j =
      byteOf S j ^^^ (if j = (active 199 1 0x86 1).rate.toNat - 1 then 0x80 else 0) :=
  ⟨by decide, by decide, fun _ hj => byteOf_xor S 198 0x80 hj⟩
theorem witness_StateReadAndStateWrite :
    ((0x0C0 : Offset).toNat % Size.b8.bytes = 0 ∧ (0x0C0 : Offset).toNat + Size.b8.bytes ≤ 0x0C8) ∧
    ((0x0C7 : Offset).toNat % Size.b1.bytes = 0 ∧ (0x0C7 : Offset).toNat + Size.b1.bytes ≤ 0x0C8) ∧
    State.reset.kse.busy = false ∧ (machine (running 0 Kse.reset)).kse.busy = true := by decide +kernel
theorem witness_LaneAccessAndSeqdbg : State.reset.kse.busy = false := rfl
theorem witness_BusyReadsAreUnspecified :
    (machine (running 0 Kse.reset)).kse.busy = true ∧ (0x000 : Offset).toNat % Size.b2.bytes = 0 ∧
    (0x000 : Offset).toNat + Size.b2.bytes ≤ 0x0C8 := by decide +kernel
theorem witness_ReservedAccess :
    ((0x0C8 : Offset).toNat % Size.b8.bytes = 0 ∧ 0x0C8 ≤ (0x0C8 : Offset).toNat ∧ (0x0FF : Offset).toNat < 0x100) ∧
    ((0x130 : Offset).toNat % Size.b8.bytes = 0 ∧ 0x130 ≤ (0x130 : Offset).toNat) ∧
    ((0xFFF : Offset).toNat % Size.b1.bytes = 0 ∧ 0x130 ≤ (0xFFF : Offset).toNat) := by decide +kernel
theorem witness_IllegalAccessIsABusError :
    (0x0C7 : Offset).toNat % Size.b2.bytes ≠ 0 ∧
    (0x100 ≤ (0x100 : Offset).toNat ∧ (0x100 : Offset).toNat < 0x130 ∧ Size.b8 ≠ .b4) ∧
    (0x100 ≤ (0x12F : Offset).toNat ∧ (0x12F : Offset).toNat < 0x130 ∧ Size.b1 ≠ .b4) := by decide +kernel
theorem witness_WaitPollsStatus :
    ({ State.reset with program := [.wait] } : State).nextTurn = .host ∧
    ({ machine (running 0 Kse.reset) with program := [.wait], sched := [.host] } : State).nextTurn = .host := by decide
theorem witness_ResetValues :
    ({ machine (running 0 Kse.reset) with sched := [.reset] } : State).nextTurn = .reset := rfl
/-- An invariant state in each phase, idle, running and in the collision case. -/
theorem witness_EveryStepKeepsTheInvariant :
    Kse.reset.Inv ∧ ({ sha256 with pos := 135 } : Kse).Inv ∧ ({ squeezing 32 with pos := 135 } : Kse).Inv ∧
    ({ sha256 with phase := .done, pos := 136 } : Kse).Inv ∧ (running 23 sha256).Inv ∧
    ({ running 23 (squeezing 32) with cont := true, suffix := 0x86 } : Kse).Inv :=
  ⟨inv_of (by decide +kernel), inv_of (by decide +kernel), inv_of (by decide +kernel), inv_of (by decide +kernel),
    inv_of (by decide +kernel), inv_of (by decide +kernel)⟩
/-- Steps that answer, for the statements about every step: the host's, the engine's, a recovery, a start. -/
theorem witness_EveryStepStatements :
    (kseOf (step State.reset)).isSome = true ∧ (command 0x00000302 Kse.reset).map Kse.err = some .noError ∧
    (command 8 { sha256 with err := .illegal }).map Kse.err = some .noError ∧
    (command 7 Kse.reset).map Kse.busy = some true ∧
    (kseOf (step (machine (running 23 Kse.reset)))).map Kse.permcnt = some 1 := by decide +kernel
theorem witness_HostCannotDisturbARunningPermutation :
    (machine (running 5 Kse.reset)).kse.busy = true ∧
    ((machine (running 5 Kse.reset)).issueCommand 1).nextTurn = .host ∧
    (command 1 (running 5 Kse.reset)).map Kse.err = some .busy := by decide +kernel
theorem witness_DrawsReachNoRegister :
    (kseOf (step (machine (running 0 Kse.reset)))).isSome = true := by decide +kernel
theorem witness_AbsorptionAndPaddingEquivalence :
    (machine (active 1 199 0x86 1)).kse.Inv ∧ (machine (active 1 199 0x86 1)).kse.Open .absorb ∧
    (machine (active 1 199 0x86 1)).kse.pos = 0 ∧ (machine (active 199 1 0x06 1)).kse.Inv ∧
    (machine (active 199 1 0x06 1)).kse.Open .absorb :=
  ⟨inv_of (by decide +kernel), ⟨rfl, rfl, rfl, rfl⟩, rfl, inv_of (by decide +kernel), ⟨rfl, rfl, rfl, rfl⟩⟩
theorem witness_BusyEnds : (running 0 sha256).Inv ∧ (running 0 sha256).busy = true := ⟨inv_of (by decide +kernel), rfl⟩
theorem witness_HashEquivalence :
    (machine sha256).kse.Inv ∧ (machine sha256).kse.Open .absorb ∧ (machine sha256).kse.sreg = 0 ∧
    (machine sha256).kse.pos = 0 ∧ (machine sha256).kse.permcnt = 0 ∧ sha256.outlen.toNat ≤ sha256.rate.toNat :=
  ⟨inv_of (by decide +kernel), ⟨rfl, rfl, rfl, rfl⟩, rfl, rfl, rfl, by decide⟩
theorem witness_SqueezingEquivalence :
    (machine (squeezing 32)).kse.Inv ∧ (machine (squeezing 32)).kse.Open .squeeze ∧ (machine (squeezing 32)).kse.pos = 0 :=
  ⟨inv_of (by decide +kernel), ⟨rfl, rfl, rfl, rfl⟩, rfl⟩

end Sys2Proof.Tests
end

section
/-! What the next turn is, what a step does in each turn, and how a table word reaches the decoder, said once; then O6
and O7. -/

namespace Sys2Proof.Machine

variable {s : State}

/-! ### Whose turn is next (R2) -/

theorem nextTurn_of_nil (h : s.sched = []) : s.nextTurn = if s.kse.busy then .engine else .host := by
  simp [State.nextTurn, h]

theorem nextTurn_of_cons {m : Turn} {rest : List Turn} (h : s.sched = m :: rest) : s.nextTurn = m := by
  simp [State.nextTurn, h]

/-! ### The step in each mover's turn (R2, R133, R250) -/

theorem step_of_engine_turn (h : s.nextTurn = .engine) : step s = s.afterTurn.onKse Kse.engineStep := by
  rw [step_eq, h]; rfl

theorem step_of_reset_turn (h : s.nextTurn = .reset) : step s = .next { s.afterTurn with kse := Kse.reset } := by
  rw [step_eq, h]; rfl

theorem step_of_host_turn (h : s.nextTurn = .host) : step s = s.afterTurn.hostTurn := by
  rw [step_eq, h]; rfl

/-! ### The host's turn, by the head of its program (R74, R109) -/

theorem hostTurn_of_nil (h : s.program = []) : s.hostTurn = .next s := by
  simp [State.hostTurn, h]

theorem hostTurn_of_access {a : Access} {rest : List HostOp} (h : s.program = .access a :: rest) :
    s.hostTurn = hostStep a { s with program := rest } := by
  simp [State.hostTurn, h]

theorem hostTurn_of_digest {rest : List HostOp} (h : s.program = .digest :: rest) :
    s.hostTurn = .next (s.beginDigest rest) := by
  simp [State.hostTurn, h]

/-! ### A command word of the host (R105) -/

theorem executeCommand_of_decodeWord_ok {v : Word} {i : Instr} (h : decodeWord v = .ok i) :
    executeCommand v s = exec i s := by
  simp [executeCommand, h]

/-- R9, R105: the write of a decodable word to CMD is one step, the decoded command's. -/
theorem step_of_writesCommand_of_decodeWord_ok {v : Word} {rest : List HostOp} {i : Instr}
    (hw : s.WritesCommand v rest) (hd : decodeWord v = .ok i) : step s = exec i (s.afterCommandWrite rest) := by
  rw [step_of_writesCommand hw, executeCommand_of_decodeWord_ok hd]

theorem decodeTableWord_eq_some_iff {nbits w : Nat} {i : Instr} :
    decodeTableWord nbits w = some i ↔ decodeWord (tableWord nbits w) = .ok i := by
  unfold decodeTableWord
  cases decodeWord (tableWord nbits w) <;> simp

theorem issueCommand_writesCommand (v : Word) (s : State) : (s.issueCommand v).WritesCommand v s.program :=
  ⟨rfl, v.setWidth 64, rfl, by simp⟩

/-- The step of an issued command gives back the schedule and the program there were before (log 1). -/
@[simp] theorem afterCommandWrite_issueCommand (v : Word) (s : State) :
    (s.issueCommand v).afterCommandWrite s.program = { s with response := some .writeOk } := rfl

end Sys2Proof.Machine

open Sys2Proof Sys2Proof.Machine

/-- Settles O6: a write to CMD is `executeCommand`, which is `exec` on a word that decodes; a table word placed by
`withFetchWord` is such a write. -/
theorem stepRunsTheDecodedCommand : Obligations.StepRunsTheDecodedCommand := by
  refine ⟨fun s v rest i hw hd => step_of_writesCommand_of_decodeWord_ok hw hd, fun s nbits w i hd => ?_⟩
  have hw : (s.withFetchWord nbits w).WritesCommand (tableWord nbits w) s.program := issueCommand_writesCommand _ s
  rw [step_of_writesCommand_of_decodeWord_ok hw (decodeTableWord_eq_some_iff.mp hd), State.withFetchWord,
    afterCommandWrite_issueCommand]

/-- Settles O7, a clause per turn and, in the host's turn, per head of the program. -/
theorem stepTakesTheNextTurn : Obligations.StepTakesTheNextTurn := by
  intro s
  refine ⟨nextTurn_of_nil, fun _ _ => nextTurn_of_cons, step_of_engine_turn, step_of_reset_turn, ?_, ?_, ?_⟩
  · intro hn hp
    rw [step_of_host_turn hn, hostTurn_of_nil (s := s.afterTurn) hp]; rfl
  · intro a rest hn hp
    rw [step_of_host_turn hn, hostTurn_of_access (s := s.afterTurn) hp]; rfl
  · intro rest hn hp
    rw [step_of_host_turn hn, hostTurn_of_digest (s := s.afterTurn) hp]; rfl
end

section
/-! What leaves the invariant, the active configuration and PERMCNT alone, said once for every host access and every
engine step; then O48, O49, O51 and O55. -/

namespace Sys2Proof.Machine

variable {s t : State} {k q : Kse} {body : Kse → Except Fault Kse}

/-! ### Changes outside the configuration, the controller and the sequencer -/

/-- `q` is `k` but for S, ERR and CFG_*: all that a bus access, a refused command and CLRERR can change. -/
def Kse.SameControl (k q : Kse) : Prop :=
  q = { k with
    sreg := q.sreg, err := q.err, cfgRate := q.cfgRate, cfgCap := q.cfgCap, cfgSuffix := q.cfgSuffix
    cfgOutlen := q.cfgOutlen }

theorem sameControl_refl (k : Kse) : k.SameControl k := rfl

theorem sameControl_recordError (k : Kse) (c : ErrCode) : k.SameControl (k.recordError c) := by
  rw [recordError_eq]; rfl

theorem sameControl_writeState (k : Kse) (off : Offset) (n : Size) (v : Lane) :
    k.SameControl (k.writeState off n v) := by
  unfold Kse.writeState
  split
  · exact sameControl_recordError k .busy
  · rfl

theorem sameControl_writeReg (k : Kse) (r : Reg) (w : Word) : k.SameControl (k.writeReg r w) := by
  cases r <;> rfl

/-- R160: a sponge command is refused, or its gate is open and its body runs. -/
theorem sponge_sameControl_or_open {p : Phase} (h : Kse.sponge p body k = .ok q) :
    k.SameControl q ∨ (k.configured = true ∧ k.phase = p ∧ body k = .ok q) := by
  rcases sponge_cases h with ⟨_, rfl⟩ | ⟨_, _, rfl⟩ | ⟨_, _, _, rfl⟩ | ⟨hc, hp, _, hbody⟩
  · exact .inl (sameControl_recordError k .nocfg)
  · exact .inl (sameControl_recordError k .phase)
  · exact .inl (sameControl_refl q)
  · exact .inr ⟨hc, hp, hbody⟩

/-- R2, R74, R105: a step is an engine step, a reset, a host step that changes at most S, ERR and CFG_*, or the
execution of a decoded command while BUSY = 0. -/
theorem step_sameControl_or_exec (h : step s = .next t) :
    (s.nextTurn = .engine ∧ s.kse.engineStep = .ok t.kse) ∨
    (s.nextTurn = .reset ∧ t.kse = Kse.reset) ∨
    (s.nextTurn = .host ∧ s.kse.SameControl t.kse) ∨
    (s.nextTurn = .host ∧ ∃ v rest i, s.WritesCommand v rest ∧ s.kse.busy = false ∧ decodeWord v = .ok i ∧
      exec i (s.afterCommandWrite rest) = .next t) := by
  rcases step_cases h with he | hr | ⟨hn, hk⟩ | ⟨hn, off, n, v, hk⟩ | ⟨hn, r, v, hk⟩ | ⟨hn, v, rest, hw, hx⟩
  · exact .inl he
  · exact .inr (.inl hr)
  · exact .inr (.inr (.inl ⟨hn, hk ▸ sameControl_refl _⟩))
  · exact .inr (.inr (.inl ⟨hn, hk ▸ sameControl_writeState _ off n v⟩))
  · exact .inr (.inr (.inl ⟨hn, hk ▸ sameControl_writeReg _ r v⟩))
  · rcases executeCommand_kse_cases hx with ⟨_, rfl⟩ | ⟨_, _, rfl⟩ | ⟨hb, i, hd, hx⟩
    · exact .inr (.inr (.inl ⟨hn, sameControl_recordError _ .busy⟩))
    · exact .inr (.inr (.inl ⟨hn, sameControl_recordError _ .illegal⟩))
    · exact .inr (.inr (.inr ⟨hn, v, rest, i, hw, hb, hd, hx⟩))

/-! ### The invariant: what does not touch it, and the sequencer's part (R38 to R41) -/

/-- The invariant does not read S, ERR and CFG_*. -/
theorem Kse.Inv.of_sameControl (h : k.Inv) (hq : k.SameControl q) : q.Inv := by
  rw [hq]
  exact ⟨h.config, h.controller, h.position, h.sequencer⟩

/-- R132: a permutation has just been started; CONT is left to be justified. -/
theorem sequencerInv_of_started_cont (hb : k.busy = true) (hr : k.rnd = 0) (hl : k.lfsr = 0x01)
    (hc : k.cont = true → k.phase = .squeeze ∧ k.suffix &&& 0x80 ≠ 0) : k.SequencerInv := by
  refine ⟨fun _ => ⟨by simp [hr], by simp [hr, hl, lfsrAfter]⟩, fun hb' => ?_, hc⟩
  simp [hb] at hb'

/-- R132 `start_perm(0)`. -/
theorem sequencerInv_of_started (hb : k.busy = true) (hc : k.cont = false) (hr : k.rnd = 0) (hl : k.lfsr = 0x01) :
    k.SequencerInv :=
  sequencerInv_of_started_cont hb hr hl fun hc' => by simp [hc] at hc'

/-- While BUSY = 0 the sequencer's invariant does not read PHASE and SUFFIX, CONT being 0. -/
theorem sequencerInv_of_idle (h : k.SequencerInv) (hb : k.busy = false) (hqb : q.busy = k.busy)
    (hqc : q.cont = k.cont) (hqr : q.rnd = k.rnd) (hql : q.lfsr = k.lfsr) : q.SequencerInv := by
  obtain ⟨_, hidle, _⟩ := h
  obtain ⟨hcont, hseq⟩ := hidle hb
  refine ⟨fun hb' => ?_, fun _ => ⟨hqc.trans hcont, by rwa [hqr, hql]⟩, fun hc => ?_⟩
  · simp [hqb, hb] at hb'
  · simp [hqc, hcont] at hc

/-! ### The invariant: the controller's part in each phase (R34, R37) -/

/-- R191: PHASE, POS and REMAIN at their start. -/
theorem controllerInv_of_start (hp : k.phase = .absorb) (hpos : k.pos = 0) (hr : k.remain = 0) : k.ControllerInv := by
  simp [Kse.ControllerInv, hp, hpos, hr]

theorem controllerInv_of_absorb (hc : k.configured = true) (hp : k.phase = .absorb) (hr : k.remain = 0) :
    k.ControllerInv := by
  simp [Kse.ControllerInv, hc, hp, hr]

theorem controllerInv_of_squeeze (hc : k.configured = true) (hp : k.phase = .squeeze)
    (hr : 1 ≤ k.remain.toNat ∧ k.remain.toNat ≤ k.outlen.toNat) : k.ControllerInv := by
  simpa [Kse.ControllerInv, hc, hp] using hr

theorem controllerInv_of_done (hc : k.configured = true) (hp : k.phase = .done) (hr : k.remain = 0) :
    k.ControllerInv := by
  simp [Kse.ControllerInv, hc, hp, hr]

theorem posInv_of_not_done (hp : k.phase ≠ .done) (hlt : k.configured = true → k.pos.toNat < k.rate.toNat) :
    k.PosInv :=
  ⟨fun hc _ => hlt hc, fun hp' => absurd hp' hp⟩

theorem posInv_of_done (hp : k.phase = .done) (hpos : 1 ≤ k.pos.toNat ∧ k.pos.toNat ≤ k.rate.toNat) : k.PosInv :=
  ⟨fun _ hp' => absurd hp hp', fun _ => hpos⟩

/-! ### The invariant and the engine (R133, R134) -/

/-- R127: the LFSR a permutation leaves. -/
theorem lfsrAfter_rounds : lfsrAfter 24 = 0x8E := by decide +kernel

/-- R127: a round takes the LFSR from one row of the table to the next. -/
theorem performRound_lfsr_eq (h : k.SequencerInv) (hb : k.busy = true) :
    k.performRound.lfsr = lfsrAfter (k.rnd.toNat + 1) := by
  obtain ⟨_, hl⟩ := h.1 hb
  rw [performRound_lfsr, keccakRound_lfsr, hl]; rfl

/-- R133: a round before the last. -/
theorem Kse.Inv.performRound (h : k.Inv) (hb : k.busy = true) (hr : k.rnd + 1 ≠ 24) : k.performRound.Inv := by
  obtain ⟨hrun, _, hcont⟩ := h.sequencer
  refine ⟨h.config, h.controller, h.position, fun _ => ?_, fun hb' => ?_, hcont⟩
  · have hlt : k.rnd.toNat < 24 := (hrun hb).1
    have hne : k.rnd.toNat + 1 ≠ 24 := fun he => hr (by bv_omega)
    have hrnd : k.performRound.rnd.toNat = k.rnd.toNat + 1 := by rw [performRound_rnd]; bv_omega
    exact ⟨by omega, by rw [hrnd, performRound_lfsr_eq h.sequencer hb]⟩
  · simp [hb] at hb'

/-- R134: the step that performs round 23 ends the permutation, or starts the second one of a collision-case PAD. -/
theorem Kse.Inv.complete (h : k.Inv) (hb : k.busy = true) (hr : k.rnd + 1 = 24)
    (hq : k.performRound.complete = .ok q) : q.Inv := by
  obtain ⟨_, _, hcont⟩ := h.sequencer
  rcases complete_cases hq with ⟨hc, rfl⟩ | ⟨_, _, rfl⟩
  · refine ⟨h.config, h.controller, h.position, fun hb' => ?_, fun _ => ⟨hc, .inr ⟨hr, ?_⟩⟩, hcont⟩
    · simp at hb'
    · have hrnd : k.rnd.toNat + 1 = 24 := by bv_omega
      exact (performRound_lfsr_eq h.sequencer hb).trans (by rw [hrnd, lfsrAfter_rounds])
  · exact ⟨h.config, h.controller, h.position, sequencerInv_of_started rfl rfl rfl rfl⟩

theorem Kse.Inv.engineStep (h : k.Inv) (hq : k.engineStep = .ok q) : q.Inv := by
  rcases engineStep_cases hq with ⟨_, rfl⟩ | ⟨hb, hr, rfl⟩ | ⟨hb, hr, hq⟩
  · exact h
  · exact h.performRound hb hr
  · exact h.complete hb hr hq

/-! ### The invariant and the commands -/

/-- R191: INIT keeps the configuration, so POS = 0 stays below RATE. -/
theorem Kse.Inv.initEffects (h : k.Inv) (hb : k.busy = false) : k.initEffects.Inv :=
  ⟨h.config, controllerInv_of_start rfl rfl rfl, posInv_of_not_done nofun fun hc => (h.config.1 hc).1,
    sequencerInv_of_idle h.sequencer hb rfl rfl rfl rfl⟩

/-- R192, R193: a valid configuration is loaded. -/
theorem Kse.Inv.loadVariant_initEffects (h : k.Inv) (hb : k.busy = false) {v : Variant} (hv : v.valid = true) :
    (k.loadVariant v).initEffects.Inv :=
  have hvalid := (valid_iff v).mp hv
  ⟨⟨fun _ => hvalid, nofun⟩, controllerInv_of_start rfl rfl rfl, posInv_of_not_done nofun fun _ => hvalid.1,
    sequencerInv_of_idle h.sequencer hb rfl rfl rfl rfl⟩

/-- R193: a failed SETCFG leaves no configuration. -/
theorem Kse.Inv.unconfigure (h : k.Inv) (hb : k.busy = false) : k.unconfigure.Inv :=
  ⟨⟨nofun, fun _ => ⟨rfl, rfl, rfl, rfl⟩⟩, controllerInv_of_start rfl rfl rfl, posInv_of_not_done nofun nofun,
    sequencerInv_of_idle h.sequencer hb rfl rfl rfl rfl⟩

/-- R136, R132. -/
theorem Kse.Inv.startPerm_false (h : k.Inv) : (k.startPerm false).Inv :=
  ⟨h.config, h.controller, h.position, sequencerInv_of_started rfl rfl rfl rfl⟩

theorem Kse.Inv.selectVariant (h : k.Inv) (hb : k.busy = false) {imm : Byte} (hq : k.selectVariant imm = .ok q) :
    q.Inv := by
  rcases selectVariant_cases hq with ⟨v, hv, rfl⟩ | ⟨_, rfl⟩
  · exact h.loadVariant_initEffects hb (variantRom_valid hv)
  · exact h.of_sameControl (sameControl_recordError k .illegal)

theorem Kse.Inv.setConfig (h : k.Inv) (hb : k.busy = false) (hq : k.setConfig = .ok q) : q.Inv := by
  rcases setConfig_cases hq with ⟨hv, rfl⟩ | ⟨_, rfl⟩
  · exact h.loadVariant_initEffects hb hv
  · exact (h.unconfigure hb).of_sameControl (sameControl_recordError _ .config)

/-- R34: inside a block POS + 1 does not wrap, and reaches RATE at most. -/
theorem toNat_pos_succ (h : k.Inv) (hc : k.configured = true) (hp : k.phase ≠ .done) :
    (k.pos + 1).toNat = k.pos.toNat + 1 ∧ k.pos.toNat + 1 ≤ k.rate.toNat := by
  have hlt := h.position.1 hc hp
  have hrate := k.rate.isLt
  exact ⟨by bv_omega, hlt⟩

/-- R34: inside a block, a POS + 1 that is not RATE is below it. -/
theorem toNat_pos_succ_lt (h : k.Inv) (hc : k.configured = true) (hp : k.phase ≠ .done) (hr : k.pos + 1 ≠ k.rate) :
    (k.pos + 1).toNat < k.rate.toNat := by
  obtain ⟨hsucc, hle⟩ := toNat_pos_succ h hc hp
  have hne : (k.pos + 1).toNat ≠ k.rate.toNat := fun he => hr (BitVec.eq_of_toNat_eq he)
  omega

/-- R161: POS stays below RATE, since a full block puts it back to 0. -/
theorem Kse.Inv.absorbByte (h : k.Inv) (hc : k.configured = true) (hp : k.phase = .absorb) {imm : Byte}
    (hq : k.absorbByte imm = .ok q) : q.Inv := by
  have hdone : k.phase ≠ .done := by simp [hp]
  obtain ⟨_, habsorb, _⟩ := h.controller
  have hremain : k.remain = 0 := habsorb hp
  obtain ⟨_, ⟨_, rfl⟩ | ⟨hr, rfl⟩⟩ := absorbByte_cases hq
  · exact ⟨h.config, controllerInv_of_absorb hc hp hremain, posInv_of_not_done hdone fun hc => (h.config.1 hc).1,
      sequencerInv_of_started rfl rfl rfl rfl⟩
  · exact ⟨h.config, controllerInv_of_absorb hc hp hremain,
      posInv_of_not_done hdone fun _ => toNat_pos_succ_lt h hc hdone hr, h.sequencer⟩

/-- R162: REMAIN becomes OUTLEN, which R30 bounds below; CONT is set in the collision case only. -/
theorem Kse.Inv.padBlock (h : k.Inv) (hc : k.configured = true) (hq : k.padBlock = .ok q) : q.Inv := by
  obtain ⟨hrate, _, _, houtlen⟩ := h.config.1 hc
  obtain ⟨_, ⟨hcol, rfl⟩ | ⟨_, _, rfl⟩⟩ := padBlock_cases hq
  · exact ⟨h.config, controllerInv_of_squeeze hc rfl ⟨houtlen, Nat.le_refl _⟩, posInv_of_not_done nofun fun _ => hrate,
      sequencerInv_of_started_cont rfl rfl rfl fun _ => ⟨rfl, ((padCollides_iff hrate).mp hcol).1⟩⟩
  · exact ⟨h.config, controllerInv_of_squeeze hc rfl ⟨houtlen, Nat.le_refl _⟩, posInv_of_not_done nofun fun _ => hrate,
      sequencerInv_of_started rfl rfl rfl rfl⟩

/-- R163, R35: a REMAIN that was not 1 stays in its range. -/
theorem remain_pred_range (h : k.Inv) (hp : k.phase = .squeeze) (hr : k.remain - 1 ≠ 0) :
    1 ≤ (k.remain - 1).toNat ∧ (k.remain - 1).toNat ≤ k.outlen.toNat := by
  obtain ⟨_, _, hsqueeze, _⟩ := h.controller
  obtain ⟨hone, hle⟩ := hsqueeze hp
  bv_omega

/-- R163: the last byte of the output leaves POS in 1 to RATE; otherwise a full block puts it back to 0. -/
theorem Kse.Inv.squeezeByte (h : k.Inv) (hb : k.busy = false) (hc : k.configured = true) (hp : k.phase = .squeeze)
    (hq : k.squeezeByte = .ok q) : q.Inv := by
  have hdone : k.phase ≠ .done := by simp [hp]
  obtain ⟨hsucc, hle⟩ := toNat_pos_succ h hc hdone
  obtain ⟨_, ⟨hr, rfl⟩ | ⟨hr, _, rfl⟩ | ⟨hr, hne, rfl⟩⟩ := squeezeByte_cases hq
  · exact ⟨h.config, controllerInv_of_done hc rfl hr, posInv_of_done rfl ⟨hsucc ▸ Nat.le_add_left 1 _, hsucc ▸ hle⟩,
      sequencerInv_of_idle h.sequencer hb rfl rfl rfl rfl⟩
  · exact ⟨h.config, controllerInv_of_squeeze hc hp (remain_pred_range h hp hr),
      posInv_of_not_done hdone fun _ => (h.config.1 hc).1, sequencerInv_of_started rfl rfl rfl rfl⟩
  · exact ⟨h.config, controllerInv_of_squeeze hc hp (remain_pred_range h hp hr),
      posInv_of_not_done hdone fun _ => toNat_pos_succ_lt h hc hdone hne, h.sequencer⟩

theorem Kse.Inv.sponge (h : k.Inv) {p : Phase} (hq : Kse.sponge p body k = .ok q)
    (hbody : k.configured = true → k.phase = p → body k = .ok q → q.Inv) : q.Inv := by
  rcases sponge_sameControl_or_open hq with hsame | ⟨hc, hp, hok⟩
  · exact h.of_sameControl hsame
  · exact hbody hc hp hok

/-- Every command executed while BUSY = 0 keeps the invariant. -/
theorem inv_of_exec {i : Instr} (h : s.kse.Inv) (hb : s.kse.busy = false) (hx : exec i s = .next t) : t.kse.Inv := by
  obtain ⟨k, rfl, hk⟩ := exec_idle_cases hb hx
  rcases hk with ⟨_, rfl⟩ | ⟨_, rfl⟩ | ⟨imm, _, hk⟩ | ⟨_, hk⟩ | ⟨imm, _, hk⟩ | ⟨_, hk⟩ | ⟨_, hk⟩ | ⟨_, rfl⟩ | ⟨_, rfl⟩
  · exact h
  · exact h.initEffects hb
  · exact h.selectVariant hb hk
  · exact h.setConfig hb hk
  · exact h.sponge hk fun hc hp => h.absorbByte hc hp
  · exact h.sponge hk fun hc _ => h.padBlock hc
  · exact h.sponge hk fun hc hp => h.squeezeByte hb hc hp
  · exact h.startPerm_false
  · exact h.of_sameControl rfl

/-- R250. -/
theorem inv_reset : Kse.reset.Inv :=
  ⟨⟨nofun, fun _ => ⟨rfl, rfl, rfl, rfl⟩⟩, controllerInv_of_start rfl rfl rfl, posInv_of_not_done nofun nofun,
    ⟨nofun, fun _ => ⟨rfl, .inl ⟨rfl, rfl⟩⟩, nofun⟩⟩

end Sys2Proof.Machine

open Sys2Proof Sys2Proof.Machine

/-- Settles O48. -/
theorem invariantHoldsAtReset : Obligations.InvariantHoldsAtReset := inv_reset

/-- Settles O49, a case per mover and, in the host's turn, per command. -/
theorem everyStepKeepsTheInvariant : Obligations.EveryStepKeepsTheInvariant := by
  intro s t h hst
  rcases step_sameControl_or_exec hst with ⟨_, hk⟩ | ⟨_, hk⟩ | ⟨_, hk⟩ | ⟨_, v, rest, i, _, hb, _, hx⟩
  · exact h.engineStep hk
  · exact hk ▸ inv_reset
  · exact h.of_sameControl hk
  · exact inv_of_exec (s := s.afterCommandWrite rest) h hb hx
end

section
/-! Who writes the active configuration (R29, R196) and PERMCNT (R43, R232), said once per command and for the engine;
then O51 and O55. -/

namespace Sys2Proof.Machine

variable {s t : State} {k q : Kse} {body : Kse → Except Fault Kse}

/-- CONFIGURED, RATE, CAP, SUFFIX and OUTLEN (R29) are in `q` as they are in `k`. -/
def Kse.SameConfig (k q : Kse) : Prop :=
  q.configured = k.configured ∧ q.rate = k.rate ∧ q.cap = k.cap ∧ q.suffix = k.suffix ∧ q.outlen = k.outlen

theorem sameConfig_refl (k : Kse) : k.SameConfig k := ⟨rfl, rfl, rfl, rfl, rfl⟩

/-! ### The engine (R134) -/

theorem complete_sameConfig_permcnt (h : k.complete = .ok q) : k.SameConfig q ∧ q.permcnt = k.permcnt + 1 := by
  rcases complete_cases h with ⟨_, rfl⟩ | ⟨_, _, rfl⟩
  · exact ⟨sameConfig_refl k, rfl⟩
  · exact ⟨sameConfig_refl k, rfl⟩

theorem engineStep_sameConfig_permcnt (h : k.engineStep = .ok q) :
    k.SameConfig q ∧ q.permcnt = if k.busy = true ∧ k.rnd + 1 = 24 then k.permcnt + 1 else k.permcnt := by
  rcases engineStep_cases h with ⟨hb, rfl⟩ | ⟨_, hr, rfl⟩ | ⟨hb, hr, h⟩
  · exact ⟨sameConfig_refl q, by simp [hb]⟩
  · exact ⟨sameConfig_refl k, (if_neg fun hlast => hr hlast.2).symm⟩
  · obtain ⟨hsame, hcount⟩ := complete_sameConfig_permcnt h
    exact ⟨hsame, hcount.trans (if_pos ⟨hb, hr⟩).symm⟩

/-! ### The commands -/

/-- Neither the active configuration nor PERMCNT changes. -/
def Kse.SameConfigPermcnt (k q : Kse) : Prop := k.SameConfig q ∧ q.permcnt = k.permcnt

theorem sameConfigPermcnt_refl (k : Kse) : k.SameConfigPermcnt k := ⟨sameConfig_refl k, rfl⟩

theorem Kse.SameControl.sameConfigPermcnt (h : k.SameControl q) : k.SameConfigPermcnt q := by
  rw [h]; exact sameConfigPermcnt_refl k

theorem absorbByte_sameConfigPermcnt {imm : Byte} (h : k.absorbByte imm = .ok q) : k.SameConfigPermcnt q := by
  obtain ⟨_, ⟨_, rfl⟩ | ⟨_, rfl⟩⟩ := absorbByte_cases h
  · exact sameConfigPermcnt_refl k
  · exact sameConfigPermcnt_refl k

theorem padBlock_sameConfigPermcnt (h : k.padBlock = .ok q) : k.SameConfigPermcnt q := by
  obtain ⟨_, ⟨_, rfl⟩ | ⟨_, _, rfl⟩⟩ := padBlock_cases h
  · exact sameConfigPermcnt_refl k
  · exact sameConfigPermcnt_refl k

theorem squeezeByte_sameConfigPermcnt (h : k.squeezeByte = .ok q) : k.SameConfigPermcnt q := by
  obtain ⟨_, ⟨_, rfl⟩ | ⟨_, _, rfl⟩ | ⟨_, _, rfl⟩⟩ := squeezeByte_cases h
  · exact sameConfigPermcnt_refl k
  · exact sameConfigPermcnt_refl k
  · exact sameConfigPermcnt_refl k

theorem sponge_sameConfigPermcnt {p : Phase} (h : Kse.sponge p body k = .ok q)
    (hbody : body k = .ok q → k.SameConfigPermcnt q) : k.SameConfigPermcnt q := by
  rcases sponge_sameControl_or_open h with hsame | ⟨_, _, hok⟩
  · exact hsame.sameConfigPermcnt
  · exact hbody hok

/-- R29, R191 to R193, R196, R232: what a command executed while BUSY = 0 does to the configuration and to PERMCNT:
INIT clears PERMCNT; SELVAR and SETCFG load a configuration and clear PERMCNT, or SETCFG fails; the others touch
neither. -/
theorem exec_configPermcnt_cases {i : Instr} (hb : s.kse.busy = false) (h : exec i s = .next t) :
    s.kse.SameConfigPermcnt t.kse ∨
    (i = .init ∧ s.kse.SameConfig t.kse ∧ t.kse.permcnt = 0) ∨
    ((∃ imm, i = .selvar imm) ∧ t.kse.permcnt = 0) ∨
    (i = .setcfg ∧ s.kse.staged.valid = true ∧ t.kse.permcnt = 0) ∨
    (i = .setcfg ∧ t.kse.permcnt = s.kse.permcnt) := by
  obtain ⟨k, rfl, hk⟩ := exec_idle_cases hb h
  rcases hk with ⟨_, rfl⟩ | ⟨hi, rfl⟩ | ⟨imm, hi, hk⟩ | ⟨hi, hk⟩ | ⟨imm, _, hk⟩ | ⟨_, hk⟩ | ⟨_, hk⟩ | ⟨_, rfl⟩ | ⟨_, rfl⟩
  · exact .inl (sameConfigPermcnt_refl _)
  · exact .inr (.inl ⟨hi, sameConfig_refl _, rfl⟩)
  · rcases selectVariant_cases hk with ⟨v, _, rfl⟩ | ⟨_, rfl⟩
    · exact .inr (.inr (.inl ⟨⟨imm, hi⟩, rfl⟩))
    · exact .inl (sameControl_recordError _ .illegal).sameConfigPermcnt
  · rcases setConfig_cases hk with ⟨hv, rfl⟩ | ⟨_, rfl⟩
    · exact .inr (.inr (.inr (.inl ⟨hi, hv, rfl⟩)))
    · exact .inr (.inr (.inr (.inr ⟨hi, by simp⟩)))
  · exact .inl (sponge_sameConfigPermcnt hk absorbByte_sameConfigPermcnt)
  · exact .inl (sponge_sameConfigPermcnt hk padBlock_sameConfigPermcnt)
  · exact .inl (sponge_sameConfigPermcnt hk squeezeByte_sameConfigPermcnt)
  · exact .inl (sameConfigPermcnt_refl _)
  · exact .inl (sameConfigPermcnt_refl _)

end Sys2Proof.Machine

open Sys2Proof Sys2Proof.Machine

/-- Settles O51: the engine and every host step but a SELVAR or SETCFG command keep the configuration. -/
theorem onlySelvarAndSetcfgConfigure : Obligations.OnlySelvarAndSetcfgConfigure := by
  intro s t h
  rcases step_sameControl_or_exec h with ⟨_, hk⟩ | ⟨hn, _⟩ | ⟨_, hk⟩ | ⟨_, v, rest, i, hw, hb, hd, hx⟩
  · exact .inl (engineStep_sameConfig_permcnt hk).1
  · exact .inr (.inl hn)
  · exact .inl hk.sameConfigPermcnt.1
  · rcases exec_configPermcnt_cases (s := s.afterCommandWrite rest) hb hx with
      hsame | ⟨_, hsame, _⟩ | ⟨⟨imm, rfl⟩, _⟩ | ⟨rfl, _, _⟩ | ⟨rfl, _⟩
    · exact .inl hsame.1
    · exact .inl hsame
    · exact .inr (.inr ⟨v, rest, hw, hb, .inl ⟨imm, hd⟩⟩)
    · exact .inr (.inr ⟨v, rest, hw, hb, .inr hd⟩)
    · exact .inr (.inr ⟨v, rest, hw, hb, .inr hd⟩)

/-- Settles O55: the engine counts with round 23; a host step keeps PERMCNT or runs `init_effects`. -/
theorem permcntCountsCompletedPermutations : Obligations.PermcntCountsCompletedPermutations := by
  intro s t h
  rcases step_sameControl_or_exec h with ⟨hn, hk⟩ | ⟨hn, hk⟩ | ⟨hn, hk⟩ | ⟨hn, v, rest, i, hw, hb, hd, hx⟩
  · left
    simpa [hn] using (engineStep_sameConfig_permcnt hk).2
  · exact .inr ⟨by rw [hk]; rfl, .inl hn⟩
  · left
    simpa [hn] using hk.sameConfigPermcnt.2
  · rcases exec_configPermcnt_cases (s := s.afterCommandWrite rest) hb hx with
      ⟨_, hcount⟩ | ⟨rfl, _, hzero⟩ | ⟨⟨imm, rfl⟩, hzero⟩ | ⟨rfl, hv, hzero⟩ | ⟨_, hcount⟩
    · exact .inl (by simpa [hn] using hcount)
    · exact .inr ⟨hzero, .inr ⟨v, rest, hw, hb, .inl hd⟩⟩
    · exact .inr ⟨hzero, .inr ⟨v, rest, hw, hb, .inr (.inl ⟨imm, hd⟩)⟩⟩
    · exact .inr ⟨hzero, .inr ⟨v, rest, hw, hb, .inr (.inr ⟨hd, hv⟩)⟩⟩
    · exact .inl (by simpa [hn] using hcount)
end

section
/-! The lane view and the byte view of S (R22 to R27); then O29 and O30. -/

namespace Sys2Proof.Machine

/-! ### Linear indices (R27) -/

theorem laneIndex_lt (x y : Fin 5) : laneIndex x y < 25 := by unfold laneIndex; omega

theorem laneIndex_ofNat {n : Nat} (hn : n < 25) : laneIndex (Fin.ofNat 5 n) (Fin.ofNat 5 (n / 5)) = n := by
  simp only [laneIndex, Fin.val_ofNat]; omega

@[simp] theorem ofNat_laneIndex (x y : Fin 5) : Fin.ofNat 5 (laneIndex x y) = x := by
  apply Fin.ext; simp only [laneIndex, Fin.val_ofNat]; omega

@[simp] theorem ofNat_laneIndex_div (x y : Fin 5) : Fin.ofNat 5 (laneIndex x y / 5) = y := by
  apply Fin.ext; simp only [laneIndex, Fin.val_ofNat]; omega

/-! ### The two views -/

/-- R25: bit `j` of lane `(x, y)` is packed at bit `64*(x+5*y) + j`. -/
theorem getLsbD_fromLanes_lane (L : Lanes) (x y : Fin 5) {j : Nat} (hj : j < 64) :
    (fromLanes L).getLsbD (64 * laneIndex x y + j) = (L x y).getLsbD j := by
  have hlane : (64 * laneIndex x y + j) / 64 = laneIndex x y := by omega
  have hbit : (64 * laneIndex x y + j) % 64 = j := by omega
  have hlt : 64 * laneIndex x y + j < 64 * 25 := by have := laneIndex_lt x y; omega
  rw [fromLanes, getLsbD_packLanes _ _ (Nat.le_refl 25), hlane, hbit, ofNat_laneIndex, ofNat_laneIndex_div,
    decide_eq_true hlt, Bool.true_and]

/-- R26: unpacking what was packed. -/
theorem toLanes_fromLanes (L : Lanes) : toLanes (fromLanes L) = L := by
  funext x y
  apply BitVec.eq_of_getLsbD_eq
  intro j hj
  rw [getLsbD_toLanes, getLsbD_fromLanes_lane L x y hj, decide_eq_true hj, Bool.true_and]

/-- R26: packing what was unpacked. -/
theorem fromLanes_toLanes (S : StateReg) : fromLanes (toLanes S) = S := by
  apply BitVec.eq_of_getLsbD_eq
  intro j hj
  have hlane : j / 64 < 25 := by omega
  have hmod : j % 64 < 64 := Nat.mod_lt j (by decide)
  rw [fromLanes, getLsbD_packLanes _ _ (Nat.le_refl 25), getLsbD_toLanes, laneIndex_ofNat hlane, Nat.div_add_mod]
  simp [hj, hmod]

/-- R22, R23: byte `k` of lane `(x, y)` is byte `8*(x+5*y) + k` of S. -/
theorem toLanes_byte (S : StateReg) (x y : Fin 5) {k : Nat} (hk : k < 8) :
    (toLanes S x y).extractLsb' (8 * k) 8 = byteOf S (8 * laneIndex x y + k) := by
  apply BitVec.eq_of_getLsbD_eq
  intro b hb
  have hbit : 8 * k + b < 64 := by omega
  have hindex : 64 * laneIndex x y + (8 * k + b) = 8 * (8 * laneIndex x y + k) + b := by omega
  simp only [BitVec.getLsbD_extractLsb', getLsbD_toLanes, getLsbD_byteOf, hb, hbit, hindex, decide_true, Bool.true_and]

end Sys2Proof.Machine

open Sys2Proof Sys2Proof.Machine

/-- Settles O29. -/
theorem laneCodecRoundTrip : Obligations.LaneCodecRoundTrip := ⟨fromLanes_toLanes, toLanes_fromLanes⟩

/-- Settles O30: the packing half is the reading half on the packed state. -/
theorem laneBytesAreLittleEndian : Obligations.LaneBytesAreLittleEndian := by
  refine ⟨fun S x y k hk => toLanes_byte S x y hk, fun L x y k hk => ?_, fun S i _ b hb => ?_⟩
  · have hbyte := toLanes_byte (fromLanes L) x y hk
    rw [toLanes_fromLanes] at hbyte
    exact hbyte.symm
  · rw [getLsbD_byteOf, decide_eq_true hb, Bool.true_and]
end

section
/-! What a legal read of a control register answers (R77, R79), and the images of STATUS, ACTCFG and SEQDBG bit by bit
(R49, R56, R58); then O38, O39 and O40. -/

namespace Sys2Proof.Machine

variable {s : State} (k : Kse)

/-! ### The read of a control register -/

/-- R46: the offset of a control register. -/
def Reg.offset : Reg → Offset
  | .cmd => 0x100
  | .status => 0x104
  | .dout => 0x108
  | .remain => 0x10C
  | .cfgRate => 0x110
  | .cfgCap => 0x114
  | .cfgSuffix => 0x118
  | .cfgOutlen => 0x11C
  | .actcfg => 0x120
  | .actoutlen => 0x124
  | .seqdbg => 0x128
  | .permcnt => 0x12C

@[simp] theorem region_offset (r : Reg) : region r.offset .b4 = .control r := by
  have hrange : 0x100 ≤ r.offset.toNat ∧ r.offset.toNat < 0x130 := by cases r <;> decide
  have hreg : regAt r.offset = r := by cases r <;> simp [regAt, Reg.offset]
  have hstate : ¬ r.offset.toNat + Size.b4.bytes ≤ 0x0C8 := by omega
  rw [region, if_neg hstate, if_pos hrange, hreg]

@[simp] theorem legalAccess_offset (r : Reg) : legalAccess r.offset .b4 = true := by
  simp only [legalAccess, region_offset]
  cases r <;> decide

/-- R79: the register's image, zero-extended; SEQDBG only while BUSY = 0. -/
theorem hostStep_read_control (r : Reg) (hbusy : r = .seqdbg → s.kse.busy = false) :
    hostStep (.read r.offset .b4) s =
      .next { s with response := some (.readOk ((s.kse.regWord r).setWidth 64)) } := by
  have hdraw : ¬ (r = .seqdbg ∧ s.kse.busy = true) := fun ⟨hseq, hb⟩ => by simp [hbusy hseq] at hb
  have hdata : s.readData r.offset .b4 = ((s.kse.regWord r).setWidth 64, s) := by
    simp only [State.readData, region_offset, if_neg hdraw]
  simp only [hostStep, legalAccess_offset, if_true, hdata]

/-! ### The images bit by bit -/

/-- A field is given by its bits. -/
theorem extractLsb'_eq_of_getLsbD {d : Lane} {start n : Nat} {f : BitVec n}
    (h : ∀ i < n, d.getLsbD (start + i) = f.getLsbD i) : d.extractLsb' start n = f := by
  apply BitVec.eq_of_getLsbD_eq
  intro i hi
  rw [BitVec.getLsbD_extractLsb', decide_eq_true hi, Bool.true_and, h i hi]

/-- R49: BUSY, CONFIGURED, PHASE, ERR and POS from bit 0 up, and zeros. -/
theorem getLsbD_statusWord (i : Nat) :
    (k.statusWord.setWidth 64).getLsbD i =
      if i < 1 then k.busy
      else if i < 2 then k.configured
      else if i < 4 then k.phase.code.getLsbD (i - 2)
      else if i < 8 then k.err.code.getLsbD (i - 4)
      else k.pos.getLsbD (i - 8) := by
  simp only [Kse.statusWord, BitVec.getLsbD_setWidth, BitVec.getLsbD_or, BitVec.getLsbD_shiftLeft,
    BitVec.getLsbD_ofBool]
  grind

/-- R56: RATE, CAP and SUFFIX from bit 0 up, and zeros. -/
theorem getLsbD_actcfgWord (i : Nat) :
    (k.actcfgWord.setWidth 64).getLsbD i =
      if i < 8 then k.rate.getLsbD i
      else if i < 16 then k.cap.getLsbD (i - 8)
      else k.suffix.getLsbD (i - 16) := by
  simp only [Kse.actcfgWord, BitVec.getLsbD_setWidth, BitVec.getLsbD_or, BitVec.getLsbD_shiftLeft]
  grind

/-- R58: RND, three zeros, LFSR and CONT from bit 0 up, and zeros. -/
theorem getLsbD_seqdbgWord (i : Nat) :
    (k.seqdbgWord.setWidth 64).getLsbD i =
      if i < 8 then k.rnd.getLsbD i
      else if i < 16 then k.lfsr.getLsbD (i - 8)
      else (decide (i = 16) && k.cont) := by
  simp only [Kse.seqdbgWord, BitVec.getLsbD_setWidth, BitVec.getLsbD_or, BitVec.getLsbD_shiftLeft,
    BitVec.getLsbD_ofBool]
  grind

end Sys2Proof.Machine

open Sys2Proof Sys2Proof.Machine

/-- Settles O38: the fields of the STATUS image. -/
theorem statusReadFields : Obligations.StatusReadFields := by
  intro s
  refine ⟨s.kse.statusWord.setWidth 64, hostStep_read_control .status nofun, ?_, ?_, ?_, ?_, ?_, ?_⟩
  · simp only [getLsbD_statusWord]; rfl
  · simp only [getLsbD_statusWord]; rfl
  · have hphase : (s.kse.statusWord.setWidth 64).extractLsb' 2 2 = s.kse.phase.code :=
      extractLsb'_eq_of_getLsbD fun i hi => by grind [getLsbD_statusWord]
    rw [hphase]; cases s.kse.phase <;> rfl
  · have herr : (s.kse.statusWord.setWidth 64).extractLsb' 4 4 = s.kse.err.code :=
      extractLsb'_eq_of_getLsbD fun i hi => by grind [getLsbD_statusWord]
    rw [herr]; cases s.kse.err <;> rfl
  · exact extractLsb'_eq_of_getLsbD fun i hi => by grind [getLsbD_statusWord]
  · exact extractLsb'_eq_of_getLsbD fun i hi => by grind [getLsbD_statusWord]

/-- Settles O40: the fields of the ACTCFG and the SEQDBG image. -/
theorem actcfgAndSeqdbgFields : Obligations.ActcfgAndSeqdbgFields := by
  intro s
  refine ⟨⟨s.kse.actcfgWord.setWidth 64, hostStep_read_control .actcfg nofun, ?_, ?_, ?_, ?_⟩,
    fun hb => ⟨s.kse.seqdbgWord.setWidth 64, hostStep_read_control .seqdbg fun _ => hb,
      ?_, ?_, ?_, ?_, ?_⟩⟩
  · exact extractLsb'_eq_of_getLsbD fun i hi => by grind [getLsbD_actcfgWord]
  · exact extractLsb'_eq_of_getLsbD fun i hi => by grind [getLsbD_actcfgWord]
  · exact extractLsb'_eq_of_getLsbD fun i hi => by grind [getLsbD_actcfgWord]
  · exact extractLsb'_eq_of_getLsbD fun i hi => by grind [getLsbD_actcfgWord]
  · exact extractLsb'_eq_of_getLsbD fun i hi => by grind [getLsbD_seqdbgWord]
  · exact extractLsb'_eq_of_getLsbD fun i hi => by grind [getLsbD_seqdbgWord]
  · exact extractLsb'_eq_of_getLsbD fun i hi => by grind [getLsbD_seqdbgWord]
  · simp only [getLsbD_seqdbgWord]; rfl
  · exact extractLsb'_eq_of_getLsbD fun i hi => by grind [getLsbD_seqdbgWord]

/-- Settles O39: each of these registers is read at its own offset, and none of them is SEQDBG. -/
theorem controlReads : Obligations.ControlReads := by
  intro s p hp
  have hread (r : Reg) {d : Lane} (hne : r ≠ .seqdbg) (hd : (s.kse.regWord r).setWidth 64 = d) :
      hostStep (.read r.offset .b4) s = .next { s with response := some (.readOk d) } :=
    hd ▸ hostStep_read_control r fun h => absurd h hne
  simp only [List.mem_cons, List.not_mem_nil, or_false] at hp
  rcases hp with rfl | rfl | rfl | rfl | rfl | rfl | rfl | rfl | rfl
  · exact hread .cmd nofun rfl
  · exact hread .dout nofun (by simp [Kse.regWord])
  · exact hread .remain nofun (by simp [Kse.regWord])
  · exact hread .cfgRate nofun (by simp [Kse.regWord])
  · exact hread .cfgCap nofun (by simp [Kse.regWord])
  · exact hread .cfgSuffix nofun (by simp [Kse.regWord])
  · exact hread .cfgOutlen nofun (by simp [Kse.regWord])
  · exact hread .actoutlen nofun (by simp [Kse.regWord])
  · exact hread .permcnt nofun rfl
end

section
/-! What a bus access does in each region, said once per region (R72, R73, R75, R77, R78, R80, R81, R82); then O35, O36,
O37, O41, O42, O43, O44 and O45. -/

namespace Sys2Proof.Machine

variable {s : State} {off : Offset} {n : Size} {v : Lane} {r : Reg}

/-! ### Region decode and legality (R72, R73) -/

theorem region_of_state_window (h : off.toNat + n.bytes ≤ 0x0C8) : region off n = .state := if_pos h

theorem region_of_control_window (hlo : 0x100 ≤ off.toNat) (hhi : off.toNat < 0x130) :
    region off n = .control (regAt off) := by
  rw [region, if_neg (by omega), if_pos ⟨hlo, hhi⟩]

theorem bytes_pos (n : Size) : 0 < n.bytes := by cases n <;> decide

theorem region_of_reserved (h : 0x0C8 ≤ off.toNat ∧ off.toNat < 0x100 ∨ 0x130 ≤ off.toNat) :
    region off n = .reserved := by
  have hpos := bytes_pos n
  rw [region, if_neg (by omega), if_neg (by omega)]

/-- R73: natural alignment, and 4 bytes wide in the CONTROL window. -/
theorem legalAccess_iff :
    legalAccess off n = true ↔ off.toNat % n.bytes = 0 ∧ (0x100 ≤ off.toNat → off.toNat < 0x130 → n = .b4) := by
  by_cases hc : 0x100 ≤ off.toNat ∧ off.toNat < 0x130
  · simp [legalAccess, region_of_control_window hc.1 hc.2, hc]
  · have hwidth : 0x100 ≤ off.toNat → off.toNat < 0x130 → n = .b4 := fun hlo hhi => absurd ⟨hlo, hhi⟩ hc
    have hregion : region off n = .state ∨ region off n = .reserved := by
      rw [region, if_neg hc]
      split <;> simp
    rcases hregion with hr | hr <;> simpa [legalAccess, hr] using fun _ => hwidth

theorem legalAccess_of_state_window (ha : off.toNat % n.bytes = 0) (h : off.toNat + n.bytes ≤ 0x0C8) :
    legalAccess off n = true := legalAccess_iff.mpr ⟨ha, by omega⟩

/-! ### An access by its legality (R74, R82) -/

theorem hostStep_read_of_legal (h : legalAccess off n = true) :
    hostStep (.read off n) s = .next { (s.readData off n).2 with response := some (.readOk (s.readData off n).1) } :=
  if_pos h

theorem hostStep_read_of_illegal (h : ¬ legalAccess off n = true) :
    hostStep (.read off n) s = .next { s.takeDraw.2 with response := some (.readError (n.low s.takeDraw.1)) } :=
  if_neg h

theorem hostStep_write_of_legal (h : legalAccess off n = true) :
    hostStep (.write off n v) s = s.writeAccess off n v := if_pos h

theorem hostStep_write_of_illegal (h : ¬ legalAccess off n = true) :
    hostStep (.write off n v) s = .next { s with response := some .writeError } := if_neg h

/-! ### A legal read, region by region (R77, R79, R81) -/

/-- R77: a STATE read while BUSY = 0. -/
theorem hostStep_read_state (ha : off.toNat % n.bytes = 0) (h : off.toNat + n.bytes ≤ 0x0C8)
    (hb : s.kse.busy = false) :
    hostStep (.read off n) s =
      .next { s with response := some (.readOk (readBytes s.kse.sreg off.toNat n.bytes)) } := by
  have hdata : s.readData off n = (readBytes s.kse.sreg off.toNat n.bytes, s) := by
    simp [State.readData, region_of_state_window h, hb]
  rw [hostStep_read_of_legal (legalAccess_of_state_window ha h), hdata]

/-- R77, R79: a legal read whose data is a `draw()`. -/
theorem hostStep_read_draw (hl : legalAccess off n = true)
    (hr : region off n = .state ∨ region off n = .control .seqdbg) (hb : s.kse.busy = true) :
    hostStep (.read off n) s = .next { s.takeDraw.2 with response := some (.readOk (n.low s.takeDraw.1)) } := by
  have hdata : s.readData off n = (n.low s.takeDraw.1, s.takeDraw.2) := by
    rcases hr with hr | hr <;> simp [State.readData, hr, hb]
  rw [hostStep_read_of_legal hl, hdata]

/-! ### A legal write, region by region (R78, R80, R81) -/

/-- R78: a STATE write, whatever BUSY is. -/
theorem hostStep_write_state (ha : off.toNat % n.bytes = 0) (h : off.toNat + n.bytes ≤ 0x0C8) :
    hostStep (.write off n v) s =
      .next { s with response := some .writeOk, kse := s.kse.writeState off n v } := by
  rw [hostStep_write_of_legal (legalAccess_of_state_window ha h), State.writeAccess, region_of_state_window h]

/-- R80: a write to a control register other than CMD. -/
theorem hostStep_write_control (hr : r ≠ .cmd) :
    hostStep (.write r.offset .b4 v) s =
      .next { s with response := some .writeOk, kse := s.kse.writeReg r (v.setWidth 32) } := by
  rw [hostStep_write_of_legal (legalAccess_offset r), State.writeAccess, region_offset]
  cases r with
  | cmd => exact absurd rfl hr
  | _ => rfl

/-- R80, R105: a write to CMD. -/
theorem hostStep_write_cmd :
    hostStep (.write Reg.cmd.offset .b4 v) s =
      executeCommand (v.setWidth 32) { s with response := some .writeOk } := by
  rw [hostStep_write_of_legal (legalAccess_offset .cmd), State.writeAccess, region_offset]

theorem writeState_of_idle {k : Kse} (hb : k.busy = false) :
    k.writeState off n v = { k with sreg := writeBytes k.sreg off.toNat v n.bytes } := by simp [Kse.writeState, hb]

theorem writeState_of_busy {k : Kse} (hb : k.busy = true) :
    k.writeState off n v = k.recordError .busy := by simp [Kse.writeState, hb]

/-! ### Eight bytes as a lane (R22, R76) -/

/-- Two lanes whose 8 bytes agree are equal. -/
theorem lane_eq_of_bytes {a b : Lane} (h : ∀ k < 8, a.extractLsb' (8 * k) 8 = b.extractLsb' (8 * k) 8) : a = b := by
  apply BitVec.eq_of_getLsbD_eq
  intro j hj
  have hbyte := congrArg (fun c : Byte => c.getLsbD (j % 8)) (h (j / 8) (by omega))
  have hmod : j % 8 < 8 := Nat.mod_lt j (by decide)
  simpa only [BitVec.getLsbD_extractLsb', hmod, decide_true, Bool.true_and, Nat.div_add_mod] using hbyte

/-- R27: different lanes have different linear indices. -/
theorem laneIndex_inj {x y u w : Fin 5} (h : laneIndex u w = laneIndex x y) : u = x ∧ w = y := by
  simp only [laneIndex] at h
  omega

/-- R76: the 8 bytes at a lane's offset are the lane. -/
theorem readBytes_lane (S : StateReg) (x y : Fin 5) : readBytes S (8 * laneIndex x y) 8 = toLanes S x y := by
  apply lane_eq_of_bytes
  intro k hk
  rw [readBytes_byte _ _ _ _ hk (Nat.le_refl 8), if_pos hk, toLanes_byte S x y hk]

/-- R76: 8 bytes written at a lane's offset replace the lane and no other. -/
theorem toLanes_writeBytes_lane (S : StateReg) (x y : Fin 5) (v : Lane) :
    toLanes (writeBytes S (8 * laneIndex x y) v 8) = setLane (toLanes S) x y v := by
  funext u w
  apply lane_eq_of_bytes
  intro k hk
  have hlt := laneIndex_lt u w
  rw [toLanes_byte _ u w hk, byteOf_writeBytes _ _ _ _ _ (by omega)]
  by_cases h : u = x ∧ w = y
  · obtain ⟨rfl, rfl⟩ := h
    rw [if_pos (by omega), setLane_self, Nat.add_sub_cancel_left]
  · have hne : laneIndex u w ≠ laneIndex x y := fun hi => h (laneIndex_inj hi)
    rw [if_neg (by omega), setLane_ne _ _ h, toLanes_byte S u w hk]

/-- R76: the offset of lane `(x, y)` in the STATE window. -/
theorem toNat_laneOffset (x y : Fin 5) :
    (BitVec.ofNat 12 (8 * (x.val + 5 * y.val))).toNat = 8 * laneIndex x y := by
  rw [BitVec.toNat_ofNat, laneIndex]
  omega

end Sys2Proof.Machine

open Sys2Proof Sys2Proof.Machine

/-- Settles O35: byte `j` of the data is byte `j` of a little-endian read. -/
theorem stateReadWhileIdle : Obligations.StateReadWhileIdle := by
  intro s off n ha h hb
  have hn : n.bytes ≤ 8 := by cases n <;> decide
  exact ⟨_, hostStep_read_state ha h hb, fun j hj => readBytes_byte s.kse.sreg off.toNat n.bytes j hj hn⟩

/-- Settles O36: the two branches of a STATE write. -/
theorem stateWrite : Obligations.StateWrite := by
  intro s off n v ha h
  refine ⟨fun hb => ⟨_, hostStep_write_state ha h, fun j hj => ?_, ?_⟩, fun hb => ?_⟩
  · rw [writeState_of_idle hb]
    exact byteOf_writeBytes s.kse.sreg off.toNat v n.bytes j hj
  · rw [writeState_of_idle hb]
  · rw [hostStep_write_state ha h, writeState_of_busy hb]

/-- Settles O37: a lane's offset is aligned and inside the STATE window, and its 8 bytes are the lane. -/
theorem laneAccess : Obligations.LaneAccess := by
  intro s x y v hb
  have hoff := toNat_laneOffset x y
  have ha : (BitVec.ofNat 12 (8 * (x.val + 5 * y.val))).toNat % Size.b8.bytes = 0 := by
    rw [hoff]; exact Nat.mul_mod_right 8 _
  have hwindow : (BitVec.ofNat 12 (8 * (x.val + 5 * y.val))).toNat + Size.b8.bytes ≤ 0x0C8 := by
    have hlt := laneIndex_lt x y
    simp only [hoff, Size.bytes]
    omega
  refine ⟨?_, _, hostStep_write_state ha hwindow, ?_⟩
  · simp only [hostStep_read_state ha hwindow hb, hoff, Size.bytes, readBytes_lane]
  · rw [writeState_of_idle hb, hoff]
    exact toLanes_writeBytes_lane s.kse.sreg x y v

/-- Settles O41: both reads are legal and take their data from a draw. -/
theorem busyReadsAreUnspecified : Obligations.BusyReadsAreUnspecified := by
  rintro s off n hb (⟨ha, h⟩ | ⟨rfl, rfl⟩)
  · exact hostStep_read_draw (legalAccess_of_state_window ha h) (.inl (region_of_state_window h)) hb
  · exact hostStep_read_draw (legalAccess_offset .seqdbg) (.inr (region_offset .seqdbg)) hb

/-- Settles O42: each register is written at its own offset. -/
theorem controlWrites : Obligations.ControlWrites := by
  intro s v
  have hwrite (r : Reg) {k : Kse} (hr : r ≠ .cmd) (hk : s.kse.writeReg r (v.setWidth 32) = k) :
      hostStep (.write r.offset .b4 v) s = .next { s with response := some .writeOk, kse := k } :=
    hk ▸ hostStep_write_control hr
  refine ⟨hwrite .cfgRate nofun ?_, hwrite .cfgCap nofun ?_, hwrite .cfgSuffix nofun ?_,
    hwrite .cfgOutlen nofun ?_, fun off hoff => ?_, ?_⟩
  · rw [Kse.writeReg, BitVec.extractLsb'_setWidth_of_le (by decide)]
  · rw [Kse.writeReg, BitVec.extractLsb'_setWidth_of_le (by decide)]
  · rw [Kse.writeReg, BitVec.extractLsb'_setWidth_of_le (by decide)]
  · rw [Kse.writeReg, BitVec.extractLsb'_setWidth_of_le (by decide)]
  · simp only [List.mem_cons, List.not_mem_nil, or_false] at hoff
    rcases hoff with rfl | rfl | rfl | rfl | rfl | rfl | rfl
    · exact hwrite .status nofun rfl
    · exact hwrite .dout nofun rfl
    · exact hwrite .remain nofun rfl
    · exact hwrite .actcfg nofun rfl
    · exact hwrite .actoutlen nofun rfl
    · exact hwrite .seqdbg nofun rfl
    · exact hwrite .permcnt nofun rfl
  · rw [← BitVec.setWidth_eq_extractLsb' (by decide)]
    exact hostStep_write_cmd

/-- Settles O43: an aligned access at a reserved offset is legal at every size. -/
theorem reservedAccess : Obligations.ReservedAccess := by
  intro s off n v ha hrange
  have hl : legalAccess off n = true := legalAccess_iff.mpr ⟨ha, by omega⟩
  have hr : region off n = .reserved := region_of_reserved hrange
  constructor
  · rw [hostStep_read_of_legal hl, State.readData, hr]
  · rw [hostStep_write_of_legal hl, State.writeAccess, hr]

/-- Settles O44: neither access is legal. -/
theorem illegalAccessIsABusError : Obligations.IllegalAccessIsABusError := by
  intro s off n v hbad
  have hl : ¬ legalAccess off n = true := by
    rw [legalAccess_iff]
    rintro ⟨ha, hwidth⟩
    rcases hbad with hmis | ⟨hlo, hhi, hne⟩
    · exact hmis ha
    · exact hne (hwidth hlo hhi)
  exact ⟨hostStep_read_of_illegal hl, hostStep_write_of_illegal hl⟩

/-- Settles O45: both a legal and an illegal read answer, with KSE as it was. -/
theorem readsHaveNoSideEffect : Obligations.ReadsHaveNoSideEffect := by
  intro s off n
  by_cases hl : legalAccess off n = true
  · exact ⟨_, hostStep_read_of_legal hl, readData_kse off n⟩
  · exact ⟨_, hostStep_read_of_illegal hl, takeDraw_kse s⟩
end

section
/-! The encoder and the decoder in the fields of a word (R101 to R104) and the opcode table's rows; then O1, O2, O3, O4
and O5. -/

namespace Sys2Proof

open Laws.WordFields (opcode operand)

variable {v w : Word} {i : Instr} {r : OpcodeRow} {imm : Byte}

/-! ### The decoder inverts the encoder (R101, R103) -/

theorem encode_eq_formatC (i : Instr) : encode i = formatC (operand i) (opcode i) := by
  cases i <;> rfl

theorem decodeWord_encode (h : i.wellFormed = true) : decodeWord (encode i) = .ok i := by
  cases i with
  | selvar imm =>
    have hsel : imm.toNat ≤ 3 := by simpa [Instr.wellFormed] using h
    simp [encode, decodeWord, hsel]
  | _ => simp [encode, decodeWord, decodeNoOperand]

/-- R103: a word that decodes carries its instruction's opcode and operand, and a selector within SELVAR's limit. -/
theorem fields_of_decodeWord (h : decodeWord v = .ok i) :
    fieldRsv v = 0 ∧ fieldImm v = operand i ∧ fieldOp v = opcode i ∧ i.wellFormed = true := by
  obtain ⟨hrsv, hcase⟩ := decodeWord_cases h
  rcases hcase with ⟨hop, himm, rfl⟩ | ⟨hop, himm, rfl⟩ | ⟨hop, hsel, rfl⟩ | ⟨hop, himm, rfl⟩ | ⟨hop, rfl⟩ |
    ⟨hop, himm, rfl⟩ | ⟨hop, himm, rfl⟩ | ⟨hop, himm, rfl⟩ | ⟨hop, himm, rfl⟩
  case inr.inr.inl => exact ⟨hrsv, rfl, hop, decide_eq_true hsel⟩
  case inr.inr.inr.inr.inl => exact ⟨hrsv, rfl, hop, rfl⟩
  all_goals exact ⟨hrsv, himm, hop, rfl⟩

theorem encode_eq_of_fields (hrsv : fieldRsv v = 0) (himm : fieldImm v = operand i) (hop : fieldOp v = opcode i) :
    encode i = v := by
  rw [encode_eq_formatC, ← himm, ← hop, formatC_fields hrsv]

theorem decodeWord_eq_ok_iff : decodeWord v = .ok i ↔ encode i = v ∧ i.wellFormed = true := by
  constructor
  · intro h
    obtain ⟨hrsv, himm, hop, hwf⟩ := fields_of_decodeWord h
    exact ⟨encode_eq_of_fields hrsv himm hop, hwf⟩
  · rintro ⟨rfl, hwf⟩
    exact decodeWord_encode hwf

theorem decodeWord_of_fields (hwf : i.wellFormed = true) (hrsv : fieldRsv v = 0) (himm : fieldImm v = operand i)
    (hop : fieldOp v = opcode i) : decodeWord v = .ok i :=
  decodeWord_eq_ok_iff.mpr ⟨encode_eq_of_fields hrsv himm hop, hwf⟩

/-! ### The legal words (R104) -/

/-- R103: the opcodes 0 to 8 but SELVAR's and ABSORB's belong to commands without an operand. -/
theorem exists_instr_of_opcode {op : Byte} (hop : op.toNat ≤ 0x08) (h2 : op ≠ 0x02) (h4 : op ≠ 0x04) :
    ∃ i : Instr, opcode i = op ∧ operand i = 0 ∧ i.wellFormed = true := by
  have hops : op = 0 ∨ op = 1 ∨ op = 3 ∨ op = 5 ∨ op = 6 ∨ op = 7 ∨ op = 8 := by bv_omega
  rcases hops with rfl | rfl | rfl | rfl | rfl | rfl | rfl
  · exact ⟨.nop, rfl, rfl, rfl⟩
  · exact ⟨.init, rfl, rfl, rfl⟩
  · exact ⟨.setcfg, rfl, rfl, rfl⟩
  · exact ⟨.pad, rfl, rfl, rfl⟩
  · exact ⟨.squeeze, rfl, rfl, rfl⟩
  · exact ⟨.permute, rfl, rfl, rfl⟩
  · exact ⟨.clrerr, rfl, rfl, rfl⟩

theorem exists_decodeWord_iff :
    (∃ i, decodeWord v = .ok i) ↔
      fieldRsv v = 0 ∧ (fieldOp v).toNat ≤ 0x08 ∧ (fieldOp v = 0x02 ∨ fieldOp v = 0x04 ∨ fieldImm v = 0) ∧
        (fieldOp v ≠ 0x02 ∨ (fieldImm v).toNat ≤ 3) := by
  constructor
  · rintro ⟨i, h⟩
    obtain ⟨hrsv, himm, hop, hwf⟩ := fields_of_decodeWord h
    rw [himm, hop]
    refine ⟨hrsv, ?_⟩
    cases i with
    | selvar imm => simpa [opcode, operand, Instr.wellFormed] using hwf
    | _ => simp [opcode, operand]
  · rintro ⟨hrsv, hop, himm, hsel⟩
    by_cases h2 : fieldOp v = 0x02
    · have hle : (fieldImm v).toNat ≤ 3 := hsel.resolve_left (not_not_intro h2)
      exact ⟨.selvar (fieldImm v), decodeWord_of_fields (decide_eq_true hle) hrsv rfl h2⟩
    by_cases h4 : fieldOp v = 0x04
    · exact ⟨.absorb (fieldImm v), decodeWord_of_fields rfl hrsv rfl h4⟩
    obtain ⟨i, hopcode, hoperand, hwf⟩ := exists_instr_of_opcode hop h2 h4
    have hzero : fieldImm v = 0 := (himm.resolve_left h2).resolve_left h4
    exact ⟨i, decodeWord_of_fields hwf hrsv (hzero.trans hoperand.symm) hopcode.symm⟩

theorem exists_decodeWord_error_iff : (∃ e, decodeWord v = .error e) ↔ ¬ ∃ i, decodeWord v = .ok i := by
  cases decodeWord v <;> simp

/-! ### The rows of the opcode table -/

/-- R101: a word is RSV, IMM and OP, side by side. -/
theorem append_fields (v : Word) : fieldRsv v ++ fieldImm v ++ fieldOp v = v := by
  apply BitVec.eq_of_getLsbD_eq
  intro j hj
  simp only [fieldRsv, fieldImm, fieldOp, BitVec.getLsbD_append, BitVec.getLsbD_extractLsb']
  grind

theorem word_eq_iff_fields :
    v = w ↔ fieldRsv v = fieldRsv w ∧ fieldImm v = fieldImm w ∧ fieldOp v = fieldOp w := by
  constructor
  · rintro rfl; exact ⟨rfl, rfl, rfl⟩
  · rintro ⟨hrsv, himm, hop⟩
    rw [← append_fields v, ← append_fields w, hrsv, himm, hop]

@[simp] theorem fieldRsv_not (v : Word) : fieldRsv (~~~ v) = ~~~ fieldRsv v := by
  ext j hj
  simp [fieldRsv, show 16 + j < 32 by omega]

@[simp] theorem fieldImm_not (v : Word) : fieldImm (~~~ v) = ~~~ fieldImm v :=
  BitVec.extractLsb'_not_of_lt (by decide)

@[simp] theorem fieldOp_not (v : Word) : fieldOp (~~~ v) = ~~~ fieldOp v :=
  BitVec.extractLsb'_not_of_lt (by decide)

/-- A row is matched field by field. -/
theorem matchesWord_iff_fields :
    r.matchesWord v = true ↔
      fieldRsv v &&& fieldRsv r.mask = fieldRsv r.pattern ∧ fieldImm v &&& fieldImm r.mask = fieldImm r.pattern ∧
        fieldOp v &&& fieldOp r.mask = fieldOp r.pattern := by
  rw [OpcodeRow.matchesWord, beq_iff_eq, word_eq_iff_fields]
  simp only [fieldRsv, fieldImm, fieldOp, BitVec.extractLsb'_and]

/-- The bits of IMM that an instruction's row leaves free: a selector's two, a data byte's eight. -/
def Instr.freeImm : Instr → Byte
  | .selvar _ => 0x03
  | .absorb _ => 0xFF
  | _ => 0x00

/-- The row of the opcode table for an instruction: all bits but the free ones are fixed, IMM to 0. -/
def Instr.row (i : Instr) : OpcodeRow := ⟨i.mnemonic, ~~~ formatC i.freeImm 0, formatC 0 (opcode i)⟩

theorem map_row_eq_opcodeTable :
    [Instr.nop, .init, .selvar 0, .setcfg, .absorb 0, .pad, .squeeze, .permute, .clrerr].map Instr.row = opcodeTable := by
  decide

theorem row_mem_opcodeTable (i : Instr) : i.row ∈ opcodeTable := by
  rw [← map_row_eq_opcodeTable]
  cases i <;> simp [Instr.row, Instr.freeImm, Instr.mnemonic, opcode]

theorem exists_row_eq (h : r ∈ opcodeTable) : ∃ i : Instr, i.row = r := by
  rw [← map_row_eq_opcodeTable] at h
  obtain ⟨i, _, hi⟩ := List.mem_map.mp h
  exact ⟨i, hi⟩

/-- R103: an instruction's row asks for RSV = 0, no IMM bit but the free ones, and the opcode. -/
theorem row_matchesWord_iff :
    i.row.matchesWord v = true ↔ fieldRsv v = 0 ∧ fieldImm v &&& ~~~ i.freeImm = 0 ∧ fieldOp v = opcode i := by
  rw [matchesWord_iff_fields]
  simp only [Instr.row, fieldRsv_not, fieldImm_not, fieldOp_not, fieldRsv_formatC, fieldImm_formatC, fieldOp_formatC,
    BitVec.ofNat_eq_ofNat, BitVec.not_zero, BitVec.and_allOnes]

theorem and_not_selectorBits_eq_zero_iff : imm &&& ~~~ (0x03 : Byte) = 0 ↔ imm.toNat ≤ 3 := by
  revert imm; decide

theorem operand_and_not_freeImm (h : i.wellFormed = true) : operand i &&& ~~~ i.freeImm = 0 := by
  cases i with
  | selvar imm => exact and_not_selectorBits_eq_zero_iff.mpr (of_decide_eq_true h)
  | absorb imm => simp [Instr.freeImm]
  | _ => rfl

/-- An IMM that an instruction's row admits is the operand of a well-formed instruction of the same row. -/
theorem exists_instr_of_and_not_freeImm (h : imm &&& ~~~ i.freeImm = 0) :
    ∃ j : Instr, opcode j = opcode i ∧ operand j = imm ∧ j.wellFormed = true ∧ j.mnemonic = i.mnemonic := by
  cases i with
  | selvar _ => exact ⟨.selvar imm, rfl, rfl, decide_eq_true (and_not_selectorBits_eq_zero_iff.mp h), rfl⟩
  | absorb _ => exact ⟨.absorb imm, rfl, rfl, rfl, rfl⟩
  | _ =>
    have himm : imm = 0 := by
      have hall : imm &&& BitVec.allOnes 8 = 0 := h
      rwa [BitVec.and_allOnes] at hall
    exact ⟨_, rfl, himm.symm, rfl, rfl⟩

theorem row_matchesWord_of_decodeWord (h : decodeWord v = .ok i) : i.row.matchesWord v = true := by
  obtain ⟨hrsv, himm, hop, hwf⟩ := fields_of_decodeWord h
  exact row_matchesWord_iff.mpr ⟨hrsv, himm ▸ operand_and_not_freeImm hwf, hop⟩

theorem decodeWord_of_row_matchesWord (h : i.row.matchesWord v = true) :
    ∃ j, decodeWord v = .ok j ∧ j.mnemonic = i.mnemonic := by
  obtain ⟨hrsv, himm, hop⟩ := row_matchesWord_iff.mp h
  obtain ⟨j, hopcode, hoperand, hwf, hname⟩ := exists_instr_of_and_not_freeImm himm
  exact ⟨j, decodeWord_of_fields hwf hrsv hoperand.symm (hop.trans hopcode.symm), hname⟩

end Sys2Proof

open Sys2Proof

/-- Settles O1. -/
theorem decodeOfEncode : Obligations.DecodeOfEncode := fun _ => decodeWord_encode

/-- Settles O2. -/
theorem encodeOfDecode : Obligations.EncodeOfDecode := fun _ _ => decodeWord_eq_ok_iff.mp

/-- Settles O3. -/
theorem decodableWordsAreTheLegalOnes : Obligations.DecodableWordsAreTheLegalOnes := fun _ => exists_decodeWord_iff

/-- Settles O4: each word of the table is the encoding of a well-formed command; the illegal words fail R104. -/
theorem writtenOutWordsDecode : Obligations.WrittenOutWordsDecode := by
  constructor
  · intro p hp
    have henc : encode p.2 = p.1 ∧ p.2.wellFormed = true := by revert p; decide
    exact ⟨decodeWord_eq_ok_iff.mpr henc, henc.1⟩
  · intro v hv
    rw [exists_decodeWord_error_iff, exists_decodeWord_iff]
    simp only [List.mem_cons, List.not_mem_nil, or_false] at hv
    rcases hv with rfl | rfl | rfl | rfl | rfl <;> decide

/-- Settles O5: the row of the decoded command matches, and a matching row admits the word's IMM. -/
theorem decoderAgreesWithOpcodeTable : Obligations.DecoderAgreesWithOpcodeTable := by
  constructor
  · intro v i h
    exact ⟨i.row, row_mem_opcodeTable i, row_matchesWord_of_decodeWord h, rfl⟩
  · intro v r hr h
    obtain ⟨i, rfl⟩ := exists_row_eq hr
    exact decodeWord_of_row_matchesWord h
end

section
/-! What a command write does in a busy state and on an illegal word (R105, R106, R222), and one round of the WAIT loop
(R109); then O8, O9 and O46. -/

namespace Sys2Proof.Machine

variable {s : State} {v : Word}

/-! ### Refused commands (R105, R106) -/

/-- R105: every command is executed behind the BUSY check. -/
theorem exec_eq_onKse_command (i : Instr) (s : State) : ∃ body, exec i s = s.onKse (Kse.command body) := by
  cases i <;> exact ⟨_, rfl⟩

theorem exec_of_busy (i : Instr) (hb : s.kse.busy = true) :
    exec i s = .next { s with kse := s.kse.recordError .busy } := by
  obtain ⟨body, hx⟩ := exec_eq_onKse_command i s
  rw [hx, onKse_of_ok (command_of_busy hb)]

theorem executeCommand_of_decodeWord_error {e : DecodeError} (h : decodeWord v = .error e) :
    executeCommand v s = .next { s with kse := s.kse.recordError (if s.kse.busy then .busy else .illegal) } := by
  simp only [executeCommand, h]
  cases hb : s.kse.busy with
  | true => exact onKse_of_ok (command_of_busy hb)
  | false => exact onKse_of_ok (command_of_idle hb)

theorem executeCommand_of_busy (v : Word) (hb : s.kse.busy = true) :
    executeCommand v s = .next { s with kse := s.kse.recordError .busy } := by
  cases hd : decodeWord v with
  | ok i => rw [executeCommand_of_decodeWord_ok hd, exec_of_busy i hb]
  | error e => rw [executeCommand_of_decodeWord_error hd, if_pos hb]

/-! ### WAIT (R109) -/

theorem hostTurn_of_wait {rest : List HostOp} (h : s.program = .wait :: rest) :
    s.hostTurn = pollStatus rest { s with program := rest } := by
  simp [State.hostTurn, h]

/-- R49, R109: one STATUS read, whose bit 0 is BUSY. -/
theorem pollStatus_eq (rest : List HostOp) (s : State) :
    pollStatus rest s = .next { s with
      response := some (.readOk (s.kse.statusWord.setWidth 64))
      program := if s.kse.busy then .wait :: rest else rest } := by
  have hread : hostStep (.read statusOffset .b4) s =
      .next { s with response := some (.readOk (s.kse.statusWord.setWidth 64)) } := hostStep_read_control .status nofun
  have hbit : (s.kse.statusWord.setWidth 64).getLsbD 0 = s.kse.busy := getLsbD_statusWord s.kse 0
  simp only [pollStatus, hread, State.lastData, hbit]

end Sys2Proof.Machine

open Sys2Proof Sys2Proof.Machine

/-- Settles O8: each of R106's bullets contradicts R104, so the word does not decode. -/
theorem illegalWordIsRecorded : Obligations.IllegalWordIsRecorded := by
  intro v s hillegal
  have hrefused : ¬ ∃ i, decodeWord v = .ok i := by
    rw [exists_decodeWord_iff]
    rintro ⟨hrsv, hop, himm, hsel⟩
    rcases hillegal with h | h | ⟨h, hne2, hne4⟩ | ⟨h, hbig⟩
    · exact h hrsv
    · exact Nat.not_le.mpr h hop
    · exact himm.elim hne2 (Or.elim · hne4 h)
    · exact hsel.elim (· h) (Nat.not_le.mpr hbig)
  obtain ⟨e, he⟩ := exists_decodeWord_error_iff.mpr hrefused
  exact executeCommand_of_decodeWord_error he

/-- Settles O9. -/
theorem busyRejectsEveryCommand : Obligations.BusyRejectsEveryCommand := fun _ hb =>
  ⟨fun i => exec_of_busy i hb, fun v => executeCommand_of_busy v hb⟩

/-- Settles O46. -/
theorem waitPollsStatus : Obligations.WaitPollsStatus := by
  intro s rest hn hp
  have hstep : step s = pollStatus rest { s.afterTurn with program := rest } := by
    rw [step_of_host_turn hn, hostTurn_of_wait (s := s.afterTurn) hp]
  exact ⟨_, hstep.trans (pollStatus_eq rest _), rfl, rfl, rfl⟩
end

section
/-! The engine as a number of rounds on S, and the two ways a permutation ends (R131 to R135); then O17, O31, O32 and
O33. -/

namespace Sys2Proof.Machine

variable {k : Kse}

/-! ### Rounds in a row (R128, R133) -/

theorem engineStep_of_idle (hb : k.busy = false) : k.engineStep = .ok k := by simp [Kse.engineStep, hb]

/-- KSE after `n` rounds of the engine, none of which completes the permutation. -/
def Kse.afterRounds (n : Nat) (k : Kse) : Kse :=
  { k with
    sreg := fromLanes (keccakRounds (toLanes k.sreg) k.lfsr n).1
    lfsr := (keccakRounds (toLanes k.sreg) k.lfsr n).2
    rnd := k.rnd + BitVec.ofNat 5 n }

theorem afterRounds_zero (k : Kse) : k.afterRounds 0 = k := by
  simp [Kse.afterRounds, keccakRounds, fromLanes_toLanes]

/-- S is packed and unpacked between two rounds, which changes nothing (R26). -/
theorem performRound_afterRounds (n : Nat) (k : Kse) : (k.afterRounds n).performRound = k.afterRounds (n + 1) := by
  simp [Kse.performRound, Kse.afterRounds, keccakRounds, toLanes_fromLanes, BitVec.ofNat_add, BitVec.add_assoc]

theorem engineRun_eq_afterRounds (hb : k.busy = true) (hr : k.rnd = 0) {n : Nat} (hn : n < 24) :
    k.engineRun n = .ok (k.afterRounds n) := by
  induction n with
  | zero => rw [afterRounds_zero]; rfl
  | succ n ih =>
    have hround : (k.afterRounds n).rnd + 1 ≠ 24 := by
      simp only [Kse.afterRounds, hr]
      bv_omega
    rw [engineRun_succ, ih (by omega)]
    exact (engineStep_of_round (k := k.afterRounds n) hb hround).trans (congrArg _ (performRound_afterRounds n k))

/-- R133: the 24th engine step performs round 23 and completes. -/
theorem engineRun_eq_complete (hb : k.busy = true) (hr : k.rnd = 0) :
    k.engineRun 24 = (k.afterRounds 24).complete := by
  have hlast : (k.afterRounds 23).rnd + 1 = 24 := by simp [Kse.afterRounds, hr]
  rw [engineRun_succ, engineRun_eq_afterRounds hb hr (by decide)]
  exact (engineStep_of_last (k := k.afterRounds 23) hb hlast).trans (congrArg _ (performRound_afterRounds 23 k))

/-! ### A started permutation (R129, R130, R132, R134) -/

/-- R127: the LFSR after `n` rounds, whatever the lanes are. -/
theorem keccakRounds_lfsr (A : Lanes) (n : Nat) : (keccakRounds A 0x01 n).2 = lfsrAfter n := by
  induction n with
  | zero => rfl
  | succ n ih => rw [keccakRounds, keccakRound_lfsr, ih]; rfl

theorem afterRounds_startPerm (k : Kse) (c : Bool) :
    (k.startPerm c).afterRounds 24 =
      { k with sreg := keccakFBytes k.sreg, busy := true, cont := c, rnd := 24, lfsr := 0x8E } := by
  have hlfsr := (keccakRounds_lfsr (toLanes k.sreg) 24).trans lfsrAfter_rounds
  simp only [Kse.afterRounds, startPerm_sreg, startPerm_lfsr, startPerm_rnd, hlfsr]
  rfl

theorem engineRun_startPerm_busy (k : Kse) (c : Bool) {n : Nat} (hn : n < 24) :
    ∃ q, (k.startPerm c).engineRun n = .ok q ∧ q.busy = true :=
  ⟨_, engineRun_eq_afterRounds rfl rfl hn, rfl⟩

/-- R134, CONT = 0. -/
theorem engineRun_startPerm_false (k : Kse) :
    (k.startPerm false).engineRun 24 = .ok { k with
      sreg := keccakFBytes k.sreg, busy := false, cont := false, rnd := 24, lfsr := 0x8E, permcnt := k.permcnt + 1 } := by
  rw [engineRun_eq_complete rfl rfl, afterRounds_startPerm]
  exact complete_of_last rfl

/-- R134, CONT = 1: the first permutation of the collision case ends by starting the second on `M`. -/
theorem engineRun_startPerm_true {M : StateReg} (hlo : 1 ≤ k.rate.toNat) (hhi : k.rate.toNat ≤ 199)
    (hM : ∀ j < 200, byteOf M j = byteOf (keccakFBytes k.sreg) j ^^^ (if j = k.rate.toNat - 1 then 0x80 else 0)) :
    (k.startPerm true).engineRun 24 =
      .ok (Kse.startPerm { k with sreg := M, rnd := 24, lfsr := 0x8E, permcnt := k.permcnt + 1 } false) := by
  have hlast : k.lastIndex = k.rate.toNat - 1 := lastIndex_of_pos hlo
  have hlt : k.lastIndex < 200 := by omega
  have hxor : M = setByte (keccakFBytes k.sreg) k.lastIndex (byteOf (keccakFBytes k.sreg) k.lastIndex ^^^ 0x80) :=
    eq_of_byteOf_eq fun j hj => by rw [hM j hj, byteOf_xor _ _ _ hj, hlast]
  rw [engineRun_eq_complete rfl rfl, afterRounds_startPerm, hxor]
  exact complete_of_cont rfl hlt

end Sys2Proof.Machine

open Sys2Proof Sys2Proof.Machine

/-- Settles O32. -/
theorem permutationTakesTwentyFourSteps : Obligations.PermutationTakesTwentyFourSteps := fun k =>
  ⟨engineRun_startPerm_false k, fun _ hn => engineRun_startPerm_busy k false hn⟩

/-- Settles O33: the second 24 engine steps are a permutation of their own, started by the first's completion. -/
theorem collisionTakesFortyEightSteps : Obligations.CollisionTakesFortyEightSteps := by
  intro k M hlo hhi hM
  have hfirst := engineRun_startPerm_true hlo hhi hM
  refine ⟨?_, fun n hn => ?_⟩
  · rw [engineRun_add 24 24, hfirst]
    exact (engineRun_startPerm_false _).trans (by simp [BitVec.add_assoc])
  · rcases Nat.lt_or_ge n 24 with h | h
    · exact engineRun_startPerm_busy k true h
    · obtain ⟨m, rfl⟩ := Nat.exists_eq_add_of_le h
      rw [engineRun_add, hfirst]
      exact engineRun_startPerm_busy _ false (by omega)

/-- Settles O31, a clause per way the engine step can go. -/
theorem engineStepPerformsOneRound : Obligations.EngineStepPerformsOneRound := by
  rintro k p rfl
  refine ⟨engineStep_of_idle, engineStep_of_round, fun hb hr hc => ?_, fun hb hr hc hlo hhi => ?_⟩
  · rw [engineStep_of_last hb hr, ← hr]
    exact complete_of_last (k := k.performRound) hc
  · have hlast : k.performRound.lastIndex = k.rate.toNat - 1 := lastIndex_of_pos (k := k.performRound) hlo
    have hlt : k.performRound.lastIndex < 200 := by omega
    refine ⟨_, (engineStep_of_last hb hr).trans (complete_of_cont (k := k.performRound) hc hlt), fun j hj => ?_, rfl⟩
    rw [← hlast]
    exact byteOf_xor _ _ _ hj

/-- Settles O17. -/
theorem permuteCompletes : Obligations.PermuteCompletes := fun _ hb => onKse_of_ok (command_of_idle hb)
end

section
/-! The steps of the permutation on lanes (R120 to R128): the rotation bit by bit, the lane walk of ρ/π, the constant ι
XORs in; then O24, O25, O26, O27 and O28. -/

namespace Sys2Proof.Machine

/-! ### Rotation (R120) -/

theorem rotl64_eq_rotateLeft (a : Lane) (n : Nat) : rotl64 a n = a.rotateLeft n := by
  rw [BitVec.rotateLeft_def, rotl64]
  split
  next h =>
    have hzero : a >>> 64 = 0 := BitVec.ushiftRight_eq_zero (Nat.le_refl 64)
    simp [h, hzero]
  next => rfl

theorem rotl64_mod (a : Lane) (n : Nat) : rotl64 a (n % 64) = rotl64 a n := by
  simp only [rotl64, Nat.mod_mod]

theorem rotl64_zero (a : Lane) : rotl64 a 0 = a := rfl

/-- Bit `i` goes to bit `(i + n) mod 64`. -/
theorem getLsbD_rotl64 (a : Lane) (n : Nat) {i : Nat} (hi : i < 64) :
    (rotl64 a n).getLsbD ((i + n) % 64) = a.getLsbD i := by
  rw [rotl64_eq_rotateLeft, BitVec.getLsbD_rotateLeft]
  by_cases h : (i + n) % 64 < n % 64
  · have hbit : 64 - n % 64 + (i + n) % 64 = i := by omega
    simp [h, hbit]
  · have hbit : (i + n) % 64 - n % 64 = i := by omega
    have hlt : (i + n) % 64 < 64 := by omega
    simp [h, hbit, hlt]

/-- θ's rotation by 1, read from the bit it arrives at (R121). -/
theorem getLsbD_rotl64_one (a : Lane) {z : Nat} (hz : z < 64) :
    (rotl64 a 1).getLsbD z = a.getLsbD ((z + 63) % 64) := by
  have hi : (z + 63) % 64 < 64 := by omega
  have hback : ((z + 63) % 64 + 1) % 64 = z := by omega
  simpa only [hback] using getLsbD_rotl64 a 1 hi

/-! ### θ where every parity is 0 (R121) -/

theorem theta_of_thetaC_eq_zero {A : Lanes} (h : ∀ x, thetaC A x = 0) : theta A = A := by
  funext x y
  simp [theta, thetaD, h, rotl64]

/-! ### The lane walk of ρ and π (R122, R123) -/

/-- The position of the walk after `n` iterations. -/
def walkPos : Nat → Fin 5 × Fin 5
  | 0 => (1, 0)
  | n + 1 => ((walkPos n).2, 2 * (walkPos n).1 + 3 * (walkPos n).2)

/-- The walk after `n` iterations. -/
def walkAfter (A : Lanes) (n : Nat) : Walk := (List.range n).foldl walkStep ⟨1, 0, A 1 0, A⟩

/-- The offsets `r[x][y]`, a row per y (R123). -/
def rhoOffset (x y : Fin 5) : Nat :=
  ([[0, 1, 62, 28, 27],
    [36, 44, 6, 55, 20],
    [3, 10, 43, 25, 39],
    [41, 45, 15, 21, 8],
    [18, 2, 61, 56, 14]].getD y.val []).getD x.val 0

variable (A : Lanes) {n j : Nat}

theorem rhoPi_eq_walkAfter : rhoPi A = (walkAfter A 24).lanes := rfl

theorem walkAfter_succ (n : Nat) : walkAfter A (n + 1) = walkStep (walkAfter A n) n := by
  simp [walkAfter, List.range_succ]

/-- Where the walk goes does not depend on the lanes. -/
theorem walkAfter_pos (n : Nat) : (walkAfter A n).x = (walkPos n).1 ∧ (walkAfter A n).y = (walkPos n).2 := by
  induction n with
  | zero => exact ⟨rfl, rfl⟩
  | succ n ih =>
    obtain ⟨hx, hy⟩ := ih
    simp [walkAfter_succ, walkStep, walkPos, hx, hy]

theorem walkAfter_succ_current (n : Nat) :
    (walkAfter A (n + 1)).current = (walkAfter A n).lanes (walkPos (n + 1)).1 (walkPos (n + 1)).2 := by
  obtain ⟨hx, hy⟩ := walkAfter_pos A n
  simp [walkAfter_succ, walkStep, walkPos, hx, hy]

theorem walkAfter_succ_lanes (n : Nat) :
    (walkAfter A (n + 1)).lanes = setLane (walkAfter A n).lanes (walkPos (n + 1)).1 (walkPos (n + 1)).2
      (rotl64 (walkAfter A n).current ((n + 1) * (n + 2) / 2)) := by
  obtain ⟨hx, hy⟩ := walkAfter_pos A n
  simp [walkAfter_succ, walkStep, walkPos, hx, hy]

/-- The walk writes no lane twice. -/
theorem walkPos_succ_inj : ∀ i < 24, ∀ j < 24, walkPos (i + 1) = walkPos (j + 1) → i = j := by decide

/-- The walk comes by every lane but (0,0), which it never writes, and the triangular number it rotates by there is
the table's offset. -/
theorem exists_walkPos_eq : ∀ x y : Fin 5, (x, y) ≠ (0, 0) →
    ∃ j < 24, walkPos j = (x, y) ∧ (j + 1) * (j + 2) / 2 % 64 = rhoOffset x y := by decide

theorem walkPos_succ_ne_zero : ∀ j < 24, walkPos (j + 1) ≠ (0, 0) := by decide

/-- A lane not yet written is as it was. -/
theorem walkAfter_lanes_of_unvisited {x y : Fin 5} (h : ∀ j < n, walkPos (j + 1) ≠ (x, y)) :
    (walkAfter A n).lanes x y = A x y := by
  induction n with
  | zero => rfl
  | succ n ih =>
    have hne : ¬ (x = (walkPos (n + 1)).1 ∧ y = (walkPos (n + 1)).2) := fun ⟨hx, hy⟩ =>
      h n (Nat.lt_succ_self n) (Prod.ext hx.symm hy.symm)
    rw [walkAfter_succ_lanes, setLane_ne _ _ hne, ih fun j hj => h j (Nat.lt_succ_of_lt hj)]

/-- The lane carried is the original one of the position: it is read before it is written. -/
theorem walkAfter_current (hn : n ≤ 24) : (walkAfter A n).current = A (walkPos n).1 (walkPos n).2 := by
  cases n with
  | zero => rfl
  | succ n =>
    rw [walkAfter_succ_current]
    refine walkAfter_lanes_of_unvisited A fun j hj heq => ?_
    exact Nat.ne_of_lt hj (walkPos_succ_inj j (by omega) n (by omega) heq)

/-- A lane written keeps what the walk wrote into it. -/
theorem walkAfter_lanes_of_visited (hj : j < n) (hn : n ≤ 24) :
    (walkAfter A n).lanes (walkPos (j + 1)).1 (walkPos (j + 1)).2 =
      rotl64 (A (walkPos j).1 (walkPos j).2) ((j + 1) * (j + 2) / 2) := by
  induction n with
  | zero => exact absurd hj (Nat.not_lt_zero j)
  | succ n ih =>
    rw [walkAfter_succ_lanes]
    rcases Nat.lt_succ_iff_lt_or_eq.mp hj with h | rfl
    · have hne : ¬ ((walkPos (j + 1)).1 = (walkPos (n + 1)).1 ∧ (walkPos (j + 1)).2 = (walkPos (n + 1)).2) :=
        fun ⟨hx, hy⟩ => Nat.ne_of_lt h (walkPos_succ_inj j (by omega) n (by omega) (Prod.ext hx hy))
      rw [setLane_ne _ _ hne, ih h (by omega)]
    · rw [setLane_self, walkAfter_current A (by omega)]

/-! ### The LFSR and ι (R125 to R127) -/

/-- R125: bit 7 of the LFSR as a byte. -/
theorem ushiftRight_seven (R : Byte) : R >>> 7 = if R.getLsbD 7 then 1 else 0 := by
  apply BitVec.eq_of_getLsbD_eq
  intro i hi
  rw [BitVec.getLsbD_ushiftRight]
  rcases Nat.eq_zero_or_pos i with rfl | hpos
  · cases R.getLsbD 7 <;> rfl
  · rw [BitVec.getLsbD_of_ge R (7 + i) (by omega)]
    split
    · simp [Nat.ne_of_gt hpos]
    · simp

/-- What ι XORs into lane (0,0) from LFSR value `R`, and the LFSR it leaves. -/
def iotaConstant (R : Byte) : Lane × Byte := (List.range 7).foldl iotaStep (0, R)

/-- ι's steps only XOR into the lane, so the lane's value can be split off. -/
theorem foldl_iotaStep_xor (l : List Nat) (a b : Lane) (R : Byte) :
    l.foldl iotaStep (a ^^^ b, R) = (a ^^^ (l.foldl iotaStep (b, R)).1, (l.foldl iotaStep (b, R)).2) := by
  induction l generalizing b R with
  | nil => rfl
  | cons i l ih =>
    have hstep : iotaStep (a ^^^ b, R) i = (a ^^^ (iotaStep (b, R) i).1, (iotaStep (b, R) i).2) := by
      simp only [iotaStep]
      split
      · rw [BitVec.xor_assoc]
      · rfl
    rw [List.foldl_cons, hstep, ih]; rfl

theorem iota_of_iotaConstant_eq {R : Byte} {c : Lane × Byte} (h : iotaConstant R = c) :
    iota A R = (setLane A 0 0 (A 0 0 ^^^ c.1), c.2) := by
  have hsplit := foldl_iotaStep_xor (List.range 7) (A 0 0) 0 R
  subst h
  rw [show A 0 0 ^^^ 0 = A 0 0 from BitVec.xor_zero] at hsplit
  rw [iota, hsplit]; rfl

end Sys2Proof.Machine

open Sys2Proof Sys2Proof.Machine

/-- Settles O24. -/
theorem rotlMovesEveryBit : Obligations.RotlMovesEveryBit := fun a n =>
  ⟨(rotl64_mod a n).symm, rotl64_zero a, fun _ hi => getLsbD_rotl64 a n hi⟩

/-- Settles O25. -/
theorem thetaAndChiBitByBit : Obligations.ThetaAndChiBitByBit := by
  intro A
  refine ⟨fun x y z hz => ?_, fun x y z hz => ?_, fun R => rfl, theta_of_thetaC_eq_zero, fun y h x => ?_,
    fun y h x => ?_⟩
  · simp only [theta, thetaD, thetaC, BitVec.getLsbD_xor, getLsbD_rotl64_one _ hz, Bool.xor_assoc]
  · simp [chi, hz]
  · simp [chi, h]
  · simp [chi, h]

/-- Settles O26: lane (0,0) is never visited; any other is carried to the position that follows it in the walk. -/
theorem rhoPiClosedForm : Obligations.RhoPiClosedForm := by
  intro A x y
  change rhoPi A y (2 * x + 3 * y) = rotl64 (A x y) (rhoOffset x y)
  rw [rhoPi_eq_walkAfter]
  by_cases h : (x, y) = (0, 0)
  · obtain ⟨rfl, rfl⟩ := Prod.mk.inj h
    exact walkAfter_lanes_of_unvisited A walkPos_succ_ne_zero
  · obtain ⟨j, hj, hpos, hoffset⟩ := exists_walkPos_eq x y h
    have hlane := walkAfter_lanes_of_visited A hj (Nat.le_refl 24)
    rw [← rotl64_mod, hoffset] at hlane
    simpa only [walkPos, hpos] using hlane

/-- Settles O27: the product with 0x71 selects it by bit 7. -/
theorem lfsrStepFeedback : Obligations.LfsrStepFeedback := by
  intro R
  rw [lfsrStep, ushiftRight_seven, BitVec.shiftLeft_eq_concat_of_lt (by decide)]
  split <;> rfl

/-- Settles O28: ι's constant does not depend on the lanes, so the table is 24 closed evaluations. -/
theorem roundConstantTable : Obligations.RoundConstantTable := by
  intro A k hk
  apply iota_of_iotaConstant_eq
  revert k
  decide
end

section
/-! What a host step can change while BUSY = 1 (R78, R80, R105, R135); then O53. -/

namespace Sys2Proof.Machine

/-- `q` is `k` but for ERR and CFG_*: all that a bus access can change while BUSY = 1. -/
def Kse.SameButErrAndStaging (k q : Kse) : Prop :=
  q = { k with
    err := q.err, cfgRate := q.cfgRate, cfgCap := q.cfgCap, cfgSuffix := q.cfgSuffix, cfgOutlen := q.cfgOutlen }

theorem sameButErrAndStaging_recordError (k : Kse) (c : ErrCode) : k.SameButErrAndStaging (k.recordError c) := by
  rw [recordError_eq]; rfl

theorem sameButErrAndStaging_writeReg (k : Kse) (r : Reg) (w : Word) : k.SameButErrAndStaging (k.writeReg r w) := by
  cases r <;> rfl

end Sys2Proof.Machine

open Sys2Proof Sys2Proof.Machine

/-- Settles O53: a STATE write and a command record BUSY, a register write reaches CFG_* only, and every other access
leaves KSE alone. -/
theorem hostCannotDisturbARunningPermutation : Obligations.HostCannotDisturbARunningPermutation := by
  intro s t hb hn h
  change s.kse.SameButErrAndStaging t.kse
  rcases step_cases h with ⟨he, _⟩ | ⟨hr, _⟩ | ⟨_, hk⟩ | ⟨_, off, n, v, hk⟩ | ⟨_, r, v, hk⟩ | ⟨_, v, rest, _, hx⟩
  · simp [hn] at he
  · simp [hn] at hr
  · rw [hk]; rfl
  · rw [hk, writeState_of_busy hb]
    exact sameButErrAndStaging_recordError s.kse .busy
  · rw [hk]
    exact sameButErrAndStaging_writeReg s.kse r v
  · rw [executeCommand_of_busy (s := s.afterCommandWrite rest) v hb] at hx
    injection hx with ht
    rw [← ht]
    exact sameButErrAndStaging_recordError s.kse .busy
end

section
/-! The gate of the sponge commands, open and shut, and what each of them leaves of S (R160 to R163); then O11, O18,
O19, O20, O22 and O23. -/

namespace Sys2Proof.Machine

variable {s t : State} {k q : Kse} {body : Kse → Except Fault Kse} {p : Phase}

/-! ### The gate (R160) -/

/-- R160: the sponge commands and the phase each of them requires. -/
def RequiresPhase (i : Instr) (p : Phase) : Prop :=
  (∃ imm, i = .absorb imm) ∧ p = .absorb ∨ i = .pad ∧ p = .absorb ∨ i = .squeeze ∧ p = .squeeze

theorem exec_eq_onKse_sponge {i : Instr} (h : RequiresPhase i p) (s : State) :
    ∃ body, exec i s = s.onKse (Kse.command (Kse.sponge p body)) := by
  rcases h with ⟨⟨imm, rfl⟩, rfl⟩ | ⟨rfl, rfl⟩ | ⟨rfl, rfl⟩
  · exact ⟨Kse.absorbByte imm, rfl⟩
  · exact ⟨Kse.padBlock, rfl⟩
  · exact ⟨Kse.squeezeByte, rfl⟩

theorem sponge_of_unconfigured (hc : k.configured = false) : Kse.sponge p body k = .ok (k.recordError .nocfg) :=
  if_pos hc

theorem sponge_of_phase_ne (hc : k.configured = true) (hp : k.phase ≠ p) :
    Kse.sponge p body k = .ok (k.recordError .phase) := by
  simp [Kse.sponge, hc, hp]

theorem sponge_of_poisoned (hc : k.configured = true) (hp : k.phase = p) (he : k.err ≠ .noError) :
    Kse.sponge p body k = .ok k := by
  simp [Kse.sponge, hc, hp, he]

/-- R105, R160: behind an open gate a sponge command is its body. -/
theorem commandSponge_of_open (h : k.Open p) : Kse.command (Kse.sponge p body) k = body k :=
  (command_of_idle h.idle).trans (sponge_of_open h.configured h.phase h.noError)

/-- R105, R160: a sponge command changes at most ERR, or the gate is open and its body runs. -/
theorem commandSponge_cases (h : Kse.command (Kse.sponge p body) k = .ok q) :
    (∃ e, q = { k with err := e }) ∨ (k.Open p ∧ body k = .ok q) := by
  rcases command_cases h with ⟨_, rfl⟩ | ⟨hb, h⟩
  · exact .inl ⟨_, recordError_eq k .busy⟩
  · rcases sponge_cases h with ⟨_, rfl⟩ | ⟨_, _, rfl⟩ | ⟨_, _, _, rfl⟩ | ⟨hc, hp, he, hbody⟩
    · exact .inl ⟨_, recordError_eq k .nocfg⟩
    · exact .inl ⟨_, recordError_eq k .phase⟩
    · exact .inl ⟨_, rfl⟩
    · exact .inr ⟨⟨hb, hc, hp, he⟩, hbody⟩

theorem exec_absorb_of_open {imm : Byte} (h : s.kse.Open .absorb) (hk : s.kse.absorbByte imm = .ok k) :
    exec (.absorb imm) s = .next { s with kse := k } := onKse_of_ok ((commandSponge_of_open h).trans hk)

theorem exec_pad_of_open (h : s.kse.Open .absorb) (hk : s.kse.padBlock = .ok k) :
    exec .pad s = .next { s with kse := k } := onKse_of_ok ((commandSponge_of_open h).trans hk)

theorem exec_squeeze_of_open (h : s.kse.Open .squeeze) (hk : s.kse.squeezeByte = .ok k) :
    exec .squeeze s = .next { s with kse := k } := onKse_of_ok ((commandSponge_of_open h).trans hk)

/-! ### The bytes of S a body leaves alone (R161, R162) -/

theorem absorbByte_byteOf_ne {imm : Byte} (h : k.absorbByte imm = .ok q) {j : Nat} (hj : j < 200)
    (hne : j ≠ k.pos.toNat) : byteOf q.sreg j = byteOf k.sreg j := by
  obtain ⟨_, ⟨_, rfl⟩ | ⟨_, rfl⟩⟩ := absorbByte_cases h
  · exact byteOf_setByte_ne _ hj hne _
  · exact byteOf_setByte_ne _ hj hne _

theorem padBlock_byteOf_ne (h : k.padBlock = .ok q) {j : Nat} (hj : j < 200) (hne : j ≠ k.pos.toNat)
    (hlast : j ≠ k.lastIndex) : byteOf q.sreg j = byteOf k.sreg j := by
  obtain ⟨_, ⟨_, rfl⟩ | ⟨_, _, rfl⟩⟩ := padBlock_cases h
  · exact byteOf_setByte_ne _ hj hne _
  · exact (byteOf_setByte_ne _ hj hlast _).trans (byteOf_setByte_ne _ hj hne _)

theorem squeezeByte_sreg (h : k.squeezeByte = .ok q) : q.sreg = k.sreg := by
  obtain ⟨_, ⟨_, rfl⟩ | ⟨_, _, rfl⟩ | ⟨_, _, rfl⟩⟩ := squeezeByte_cases h
  · rfl
  · rfl
  · rfl

/-- R30, R34: behind an open gate POS and the last byte of the block lie below RATE, and RATE inside S. -/
theorem Kse.Inv.block_bounds (h : k.Inv) (ho : k.Open p) (hp : p ≠ .done) :
    k.pos.toNat < k.rate.toNat ∧ k.lastIndex = k.rate.toNat - 1 ∧ k.rate.toNat ≤ 199 := by
  obtain ⟨hlo, hhi, _, _⟩ := h.config.1 ho.configured
  exact ⟨h.position.1 ho.configured (ho.phase.symm ▸ hp), lastIndex_of_pos hlo, hhi⟩

end Sys2Proof.Machine

open Sys2Proof Sys2Proof.Machine

/-- Settles O11: the three checks of the gate, in its order. -/
theorem spongeGateOrder : Obligations.SpongeGateOrder := by
  intro s i p hi hb
  obtain ⟨body, hx⟩ := exec_eq_onKse_sponge hi s
  have hgate {q : Kse} (hq : Kse.sponge p body s.kse = .ok q) : exec i s = .next { s with kse := q } :=
    hx.trans (onKse_of_ok ((command_of_idle hb).trans hq))
  exact ⟨fun hc => hgate (sponge_of_unconfigured hc), fun hc hp => hgate (sponge_of_phase_ne hc hp),
    fun hc hp he => hgate (sponge_of_poisoned hc hp he)⟩

/-- Settles O18. -/
theorem absorbCompletes : Obligations.AbsorbCompletes := by
  intro s imm ho hpos
  have hbyte : ∀ j < 200,
      byteOf (setByte s.kse.sreg s.kse.pos.toNat (byteOf s.kse.sreg s.kse.pos.toNat ^^^ imm)) j =
        if j = s.kse.pos.toNat then byteOf s.kse.sreg j ^^^ imm else byteOf s.kse.sreg j :=
    fun j hj => (byteOf_xor _ _ imm hj).trans (by split <;> simp)
  have hk := absorbByte_of_lt (imm := imm) hpos
  by_cases hr : s.kse.pos + 1 = s.kse.rate
  · rw [if_pos hr] at hk
    exact ⟨_, exec_absorb_of_open ho hk, hbyte, by rw [if_pos hr]⟩
  · rw [if_neg hr] at hk
    exact ⟨_, exec_absorb_of_open ho hk, hbyte, by rw [if_neg hr]⟩

/-- Settles O19. -/
theorem padCompletes : Obligations.PadCompletes := by
  intro s collides ho hpos hlo hhi hcol
  have hlast : s.kse.lastIndex = s.kse.rate.toNat - 1 := lastIndex_of_pos hlo
  have hcollides : s.kse.padCollides = collides := Bool.eq_iff_iff.mpr ((padCollides_iff hlo).trans hcol.symm)
  refine ⟨_, exec_pad_of_open ho (padBlock_of_lt hpos (by omega)), fun j hj => ?_, by rw [hcollides]⟩
  cases collides with
  | true => simpa [hcollides] using byteOf_xor s.kse.sreg s.kse.pos.toNat s.kse.suffix hj
  | false =>
    simp only [hcollides, Bool.false_eq_true, if_false, and_true]
    rw [byteOf_xor _ _ _ hj, byteOf_xor _ _ _ hj, hlast]

/-- Settles O20. -/
theorem squeezeCompletes : Obligations.SqueezeCompletes := fun _ ho hpos =>
  exec_squeeze_of_open ho (squeezeByte_of_lt hpos)

/-- Settles O22: a refused command changes at most ERR, and an executed one what its body writes. -/
theorem spongeAndPermuteFrame : Obligations.SpongeAndPermuteFrame := by
  refine fun s t => ⟨fun imm hx => ?_, fun hx => ?_, fun hx => ?_, fun hx => ?_⟩
  all_goals obtain ⟨k, hk, rfl⟩ := onKse_next_iff.mp hx
  · rcases commandSponge_cases hk with ⟨e, rfl⟩ | ⟨_, hbody⟩
    · exact ⟨rfl, fun _ _ _ => rfl⟩
    · refine ⟨?_, fun j hj hne => absorbByte_byteOf_ne hbody hj hne⟩
      obtain ⟨_, ⟨_, rfl⟩ | ⟨_, rfl⟩⟩ := absorbByte_cases hbody
      · rfl
      · rfl
  · rcases commandSponge_cases hk with ⟨e, rfl⟩ | ⟨_, hbody⟩
    · exact ⟨rfl, fun _ _ _ _ => rfl⟩
    · refine ⟨?_, fun j hj hne hlast => padBlock_byteOf_ne hbody hj hne hlast⟩
      obtain ⟨_, ⟨_, rfl⟩ | ⟨_, _, rfl⟩⟩ := padBlock_cases hbody
      · rfl
      · rfl
  · rcases commandSponge_cases hk with ⟨e, rfl⟩ | ⟨_, hbody⟩
    · rfl
    · obtain ⟨_, ⟨_, rfl⟩ | ⟨_, _, rfl⟩ | ⟨_, _, rfl⟩⟩ := squeezeByte_cases hbody
      · rfl
      · rfl
      · rfl
  · rcases command_cases hk with ⟨_, hk⟩ | ⟨_, hk⟩
    · rw [recordError_eq] at hk
      subst hk
      rfl
    · cases hk
      rfl

/-- Settles O23: behind an open gate every byte a body writes lies below RATE. -/
theorem capacityIsUntouched : Obligations.CapacityIsUntouched := by
  rintro s t i hinv (⟨imm, rfl⟩ | rfl | rfl) hx j hj hr
  all_goals
    obtain ⟨k, hk, rfl⟩ := onKse_next_iff.mp hx
    rcases commandSponge_cases hk with ⟨e, rfl⟩ | ⟨ho, hbody⟩
    · rfl
    obtain ⟨hpos, hlast, _⟩ := hinv.block_bounds ho nofun
  · exact absorbByte_byteOf_ne hbody hj (by omega)
  · exact padBlock_byteOf_ne hbody hj (by omega) (by omega)
  · exact congrArg (byteOf · j) (squeezeByte_sreg hbody)
end

section
/-! A command followed by a wait of 48 engine steps (R261), and PAD so (R134, R162, R166); then O58. -/

namespace Sys2Proof.Machine

variable {s t : State} {k q : Kse}

/-! ### The wait (R133, R261) -/

/-- R261: the wait lasts beyond the one permutation of `start_perm(0)`. -/
theorem engineRun_wait_startPerm_false (k : Kse) :
    (k.startPerm false).engineRun 48 = .ok { k with
      sreg := keccakFBytes k.sreg, busy := false, cont := false, rnd := 24, lfsr := 0x8E
      permcnt := k.permcnt + 1 } := by
  rw [engineRun_add 24 24, engineRun_startPerm_false]
  exact engineRun_of_idle 24 rfl

/-- R134, R261: the wait lasts for the two permutations of the collision case. -/
theorem engineRun_wait_startPerm_true (hlo : 1 ≤ k.rate.toNat) (hhi : k.rate.toNat ≤ 199) :
    (k.startPerm true).engineRun 48 = .ok { k with
      sreg :=
        let S := keccakFBytes k.sreg
        keccakFBytes (setByte S (k.rate.toNat - 1) (byteOf S (k.rate.toNat - 1) ^^^ 0x80))
      busy := false, cont := false, rnd := 24, lfsr := 0x8E, permcnt := k.permcnt + 2 } :=
  (collisionTakesFortyEightSteps k _ hlo hhi fun _ hj => byteOf_xor _ _ _ hj).1

theorem Kse.Inv.engineRun (h : k.Inv) {n : Nat} (hq : k.engineRun n = .ok q) : q.Inv := by
  induction n generalizing k with
  | zero =>
    cases hq
    exact h
  | succ n ih =>
    rw [Kse.engineRun] at hq
    split at hq
    · rename_i hr
      exact ih (h.engineStep hr) hq
    · cases hq

theorem commandThenWait_of_ok {i : Instr} (hx : exec i s = .next { s with kse := k }) (hq : k.engineRun 48 = .ok q) :
    commandThenWait i s = .next { s with kse := q } := by
  simp only [commandThenWait, hx]
  exact onKse_of_ok hq

theorem commandThenWait_inv {i : Instr} (h : s.kse.Inv) (hb : s.kse.busy = false)
    (hw : commandThenWait i s = .next t) : t.kse.Inv := by
  unfold commandThenWait at hw
  split at hw
  · rename_i u hx
    obtain ⟨q, hq, rfl⟩ := onKse_next_iff.mp hw
    exact (inv_of_exec h hb hx).engineRun hq
  · cases hw
  · cases hw

/-! ### PAD (R162) -/

/-- R162: KSE as PAD hands it to `start_perm`. -/
def Kse.padded (k : Kse) : Kse :=
  { k with
    sreg :=
      let S := setByte k.sreg k.pos.toNat (byteOf k.sreg k.pos.toNat ^^^ k.suffix)
      if k.padCollides then S else setByte S k.lastIndex (byteOf S k.lastIndex ^^^ 0x80)
    phase := .squeeze, pos := 0, remain := k.outlen }

theorem padBlock_eq_startPerm_padded (h : k.pos.toNat < 200) (hl : k.lastIndex < 200) :
    k.padBlock = .ok (k.padded.startPerm k.padCollides) := padBlock_of_lt h hl

end Sys2Proof.Machine

open Sys2Proof Sys2Proof.Machine

/-- Settles O58: PAD starts one permutation, or in the collision case the first of two, with the 0x80 between them. -/
theorem paddingEquivalence : Obligations.PaddingEquivalence := by
  intro s hinv ho
  obtain ⟨hlo, hhi, _, _⟩ := hinv.config.1 ho.configured
  obtain ⟨hpos, hlast, _⟩ := hinv.block_bounds ho nofun
  have hx := exec_pad_of_open ho (padBlock_eq_startPerm_padded (by omega) (by omega))
  simp only [sourcePad, ← padCollides_iff (k := s.kse) hlo]
  cases hc : s.kse.padCollides with
  | true =>
    rw [hc] at hx
    rw [commandThenWait_of_ok hx (engineRun_wait_startPerm_true (k := s.kse.padded) hlo hhi)]
    simp [Kse.padded, hc]
  | false =>
    rw [hc] at hx
    rw [commandThenWait_of_ok hx (engineRun_wait_startPerm_false _)]
    simp [Kse.padded, hc, hlast]
end

section
/-! The source's absorption and squeezing (R165, R167) taken byte by byte. A cursor is S with the position in the block
of the next byte. -/

namespace Sys2Proof.Machine

variable {r p n : Nat} {S : StateReg} {m : List Byte}

/-! ### Absorption -/

/-- One byte of the block is done: the permutation follows the block's last byte. -/
def nextCursor (r : Nat) (c : StateReg × Nat) : StateReg × Nat :=
  if c.2 + 1 = r then (keccakFBytes c.1, 0) else (c.1, c.2 + 1)

theorem nextCursor_of_last (h : p + 1 = r) : nextCursor r (S, p) = (keccakFBytes S, 0) := if_pos h

theorem nextCursor_of_ne (h : p + 1 ≠ r) : nextCursor r (S, p) = (S, p + 1) := if_neg h

theorem nextCursor_pos (h : p < r) : (nextCursor r (S, p)).2 = (p + 1) % r := by
  by_cases hr : p + 1 = r
  · rw [nextCursor_of_last hr, hr, Nat.mod_self]
  · rw [nextCursor_of_ne hr, Nat.mod_eq_of_lt (by omega)]

/-- The byte `b` absorbed at the cursor. -/
def absorbAt (r : Nat) (c : StateReg × Nat) (b : Byte) : StateReg × Nat :=
  nextCursor r (setByte c.1 c.2 (byteOf c.1 c.2 ^^^ b), c.2)

theorem foldl_absorbAt_of_lt (h : p + m.length < r) :
    m.foldl (absorbAt r) (S, p) = (xorBytes S p m, p + m.length) := by
  induction m generalizing S p with
  | nil => rfl
  | cons b bs ih =>
    rw [List.length_cons] at h
    rw [List.foldl_cons, absorbAt, nextCursor_of_ne (by omega), ih (by omega), xorBytes, List.length_cons]
    congr 1
    omega

theorem foldl_absorbAt_of_block (hm : m ≠ []) (h : p + m.length = r) :
    m.foldl (absorbAt r) (S, p) = (keccakFBytes (xorBytes S p m), 0) := by
  induction m generalizing S p with
  | nil => exact absurd rfl hm
  | cons b bs ih =>
    rw [List.length_cons] at h
    rw [List.foldl_cons, absorbAt, xorBytes]
    cases bs with
    | nil => exact nextCursor_of_last h
    | cons b' bs =>
      rw [List.length_cons] at h ih
      rw [nextCursor_of_ne (by omega), ih (by simp) (by omega)]

/-- R165: absorbing byte by byte from the start of a block is the source's absorption. -/
theorem foldl_absorbAt_eq_sourceAbsorb (hr : 0 < r) (hn : m.length / r = n) :
    m.foldl (absorbAt r) (S, 0) = sourceAbsorb r n m S := by
  induction n generalizing m S with
  | zero =>
    have hlt : m.length < r := (Nat.div_eq_zero_iff_lt hr).mp hn
    rw [foldl_absorbAt_of_lt (by omega), Nat.zero_add]
    rfl
  | succ n ih =>
    have hle : r ≤ m.length := (Nat.div_pos_iff.mp (by omega : 0 < m.length / r)).2
    have htake : (m.take r).length = r := by simp [hle]
    have hne : m.take r ≠ [] := fun h => by simp [h] at htake; omega
    have hdrop : (m.drop r).length / r = n := by
      rw [Nat.div_eq_sub_div hr hle] at hn
      rw [List.length_drop]
      omega
    conv_lhs => rw [← List.take_append_drop r m, List.foldl_append,
      foldl_absorbAt_of_block hne (by rw [htake, Nat.zero_add]), ih hdrop]
    rfl

/-! ### Squeezing -/

/-- `n` bytes squeezed from the cursor on. -/
def squeezeFrom (r : Nat) : Nat → StateReg × Nat → List Byte
  | 0, _ => []
  | n + 1, c => byteOf c.1 c.2 :: squeezeFrom r n (nextCursor r c)

@[simp] theorem squeezeFrom_length (c : StateReg × Nat) : (squeezeFrom r n c).length = n := by
  induction n generalizing c with
  | zero => rfl
  | succ n ih => rw [squeezeFrom, List.length_cons, ih]

/-- The bytes of one block; those of the next block follow the permutation. -/
theorem squeezeFrom_block {a : Nat} (ha : 0 < a) (h : p + a = r) :
    squeezeFrom r (a + n) (S, p) = (List.range' p a).map (byteOf S) ++ squeezeFrom r n (keccakFBytes S, 0) := by
  induction a generalizing p with
  | zero => omega
  | succ a ih =>
    rw [Nat.succ_add, squeezeFrom, List.range'_succ, List.map_cons, List.cons_append]
    cases a with
    | zero => rw [nextCursor_of_last h, Nat.zero_add]; rfl
    | succ a => rw [nextCursor_of_ne (by omega), ih (by omega) (by omega)]

theorem squeezeFrom_of_le (h : p + n ≤ r) : squeezeFrom r n (S, p) = (List.range' p n).map (byteOf S) := by
  induction n generalizing p with
  | zero => rfl
  | succ n ih =>
    rw [squeezeFrom, List.range'_succ, List.map_cons]
    cases n with
    | zero => rfl
    | succ n => rw [nextCursor_of_ne (by omega), ih (by omega)]

/-- R167: squeezing byte by byte from the start of a block is the source's squeezing; `n` blocks are enough. -/
theorem squeezeFrom_eq_sourceSqueeze (hr : 0 < r) {fuel : Nat} (hf : n ≤ fuel) :
    squeezeFrom r n (S, 0) = sourceSqueeze r fuel n S := by
  induction fuel generalizing n S with
  | zero =>
    rw [Nat.le_zero.mp hf]
    rfl
  | succ fuel ih =>
    rw [sourceSqueeze, List.range_eq_range']
    by_cases h : r < n
    · obtain ⟨d, rfl⟩ := Nat.exists_eq_add_of_lt h
      rw [if_pos h, Nat.min_eq_right (by omega), Nat.add_assoc, squeezeFrom_block hr (Nat.zero_add r), ih (by omega),
        Nat.add_sub_cancel_left]
    · rw [if_neg h, Nat.min_eq_left (by omega), squeezeFrom_of_le (by omega), List.append_nil]

end Sys2Proof.Machine
end

section
/-! The ABSORB and SQUEEZE commands, each followed by a wait, as single bytes of the source's functions (R161, R163,
R165, R167 to R170); then O57, O59 and O60. -/

namespace Sys2Proof.Machine

variable {s t : State} {k q : Kse} {r n : Nat} {m : List Byte}

/-! ### One byte and a wait (R161, R163) -/

/-- The cursor of KSE. -/
def Kse.cursor (k : Kse) : StateReg × Nat := (k.sreg, k.pos.toNat)

/-- R161, R163: KSE as ABSORB and SQUEEZE leave it when the byte at POS is done and more may follow. -/
def Kse.byteDone (k : Kse) : Kse :=
  if k.pos + 1 = k.rate then Kse.startPerm { k with pos := 0 } false else { k with pos := k.pos + 1 }

theorem absorbByte_eq_byteDone {imm : Byte} (h : k.pos.toNat < 200) :
    k.absorbByte imm = .ok (Kse.byteDone { k with
      sreg := setByte k.sreg k.pos.toNat (byteOf k.sreg k.pos.toNat ^^^ imm) }) := absorbByte_of_lt h

theorem squeezeByte_eq_byteDone (h : k.pos.toNat < 200) (hr : k.remain - 1 ≠ 0) :
    k.squeezeByte = .ok (Kse.byteDone { k with dout := byteOf k.sreg k.pos.toNat, remain := k.remain - 1 }) :=
  (squeezeByte_of_lt h).trans (by rw [if_neg hr]; rfl)

/-- `q` is `k` with its cursor one byte on, and the permutation of a block's end performed. -/
structure Kse.Advanced (k q : Kse) : Prop where
  cursor : q.cursor = nextCursor k.rate.toNat k.cursor
  permcnt : q.permcnt = k.permcnt + BitVec.ofNat 32 ((k.pos.toNat + 1) / k.rate.toNat)
  frame : q = { k with
    sreg := q.sreg, pos := q.pos, cont := q.cont, rnd := q.rnd, lfsr := q.lfsr, permcnt := q.permcnt }

theorem Kse.Advanced.gate {ph : Phase} (h : k.Advanced q) (ho : k.Open ph) : q.Open ph := by
  rw [h.frame]
  exact ⟨ho.idle, ho.configured, ho.phase, ho.noError⟩

theorem Kse.Advanced.config (h : k.Advanced q) : k.SameConfig q := by
  rw [h.frame]
  exact sameConfig_refl k

theorem Kse.Advanced.pos (h : k.Advanced q) (hp : k.pos.toNat < k.rate.toNat) :
    q.pos.toNat = (k.pos.toNat + 1) % k.rate.toNat :=
  (congrArg Prod.snd h.cursor).trans (nextCursor_pos hp)

theorem engineRun_wait_byteDone (hb : k.busy = false) (hp : k.pos.toNat < k.rate.toNat) :
    ∃ q, k.byteDone.engineRun 48 = .ok q ∧ k.Advanced q := by
  have hrate := k.rate.isLt
  have hsucc : (k.pos + 1).toNat = k.pos.toNat + 1 := by bv_omega
  by_cases hr : k.pos + 1 = k.rate
  · have hlast : k.pos.toNat + 1 = k.rate.toNat := by rw [← hsucc, hr]
    have hone : (k.pos.toNat + 1) / k.rate.toNat = 1 := by rw [hlast, Nat.div_self (by omega)]
    rw [Kse.byteDone, if_pos hr]
    exact ⟨_, engineRun_wait_startPerm_false _, (nextCursor_of_last hlast).symm, by rw [hone]; rfl, by rw [hb]⟩
  · have hne : k.pos.toNat + 1 ≠ k.rate.toNat := fun he => hr (BitVec.eq_of_toNat_eq (hsucc.trans he))
    have hzero : (k.pos.toNat + 1) / k.rate.toNat = 0 := Nat.div_eq_of_lt (by omega)
    rw [Kse.byteDone, if_neg hr]
    exact ⟨_, engineRun_of_idle 48 hb, (congrArg (Prod.mk k.sreg) hsucc).trans (nextCursor_of_ne hne).symm,
      by simp [hzero], rfl⟩

/-- Blocks filled by `a` bytes, then by `b` more. -/
theorem div_add_mod_add_div (a b : Nat) (hr : 0 < r) : a / r + (a % r + b) / r = (a + b) / r := by
  conv_rhs => rw [← Nat.div_add_mod a r, Nat.add_assoc, Nat.mul_add_div hr]

/-! ### ABSORB of every byte of a message (R165) -/

/-- `q` is `k` after the bytes of `m`, ready for more. -/
structure Kse.Absorbed (m : List Byte) (k q : Kse) : Prop where
  inv : q.Inv
  gate : q.Open .absorb
  config : k.SameConfig q
  cursor : q.cursor = m.foldl (absorbAt k.rate.toNat) k.cursor
  pos : q.pos.toNat = (k.pos.toNat + m.length) % k.rate.toNat
  permcnt : q.permcnt = k.permcnt + BitVec.ofNat 32 ((k.pos.toNat + m.length) / k.rate.toNat)

theorem Kse.SameConfig.trans {u : Kse} (h : k.SameConfig u) (h' : u.SameConfig q) : k.SameConfig q := by
  obtain ⟨hconf, hrate, hcap, hsuffix, houtlen⟩ := h
  obtain ⟨hconf', hrate', hcap', hsuffix', houtlen'⟩ := h'
  exact ⟨hconf'.trans hconf, hrate'.trans hrate, hcap'.trans hcap, hsuffix'.trans hsuffix, houtlen'.trans houtlen⟩

theorem absorbed_nil (hinv : k.Inv) (ho : k.Open .absorb) : k.Absorbed [] k := by
  obtain ⟨hpos, _, _⟩ := hinv.block_bounds ho nofun
  exact ⟨hinv, ho, sameConfig_refl k, rfl, (Nat.mod_eq_of_lt hpos).symm, by simp [Nat.div_eq_of_lt hpos]⟩

/-- One byte, then the others. -/
theorem Kse.Absorbed.cons {b : Byte} {u : Kse} (h : k.Absorbed [b] u) (hm : u.Absorbed m q) :
    k.Absorbed (b :: m) q := by
  obtain ⟨_, hrate, _⟩ := h.config
  have hr : 0 < k.rate.toNat := hrate ▸ (h.inv.config.1 h.gate.configured).1
  refine ⟨hm.inv, hm.gate, h.config.trans hm.config, ?_, ?_, ?_⟩
  · rw [hm.cursor, hrate, h.cursor]
    rfl
  · rw [hm.pos, hrate, h.pos, Nat.mod_add_mod, List.length_singleton, List.length_cons, Nat.add_assoc,
      Nat.add_comm 1]
  · rw [hm.permcnt, hrate, h.permcnt, h.pos, BitVec.add_assoc, ← BitVec.ofNat_add, div_add_mod_add_div _ _ hr,
      List.length_singleton, List.length_cons, Nat.add_assoc, Nat.add_comm 1]

/-- R165: from the start of a block, the bytes of `m` are the source's absorption of `m`. -/
theorem Kse.Absorbed.cursor_eq_sourceAbsorb (h : k.Absorbed m q) (hr : 0 < k.rate.toNat) (hpos : k.pos = 0) :
    q.cursor = sourceAbsorb k.rate.toNat (m.length / k.rate.toNat) m k.sreg := by
  rw [h.cursor, Kse.cursor, hpos]
  exact foldl_absorbAt_eq_sourceAbsorb hr rfl

theorem commandThenWait_absorb (b : Byte) (hinv : s.kse.Inv) (ho : s.kse.Open .absorb) :
    ∃ t, commandThenWait (.absorb b) s = .next t ∧ s.kse.Absorbed [b] t.kse := by
  obtain ⟨hpos, _, _⟩ := hinv.block_bounds ho nofun
  obtain ⟨q, hq, hadv⟩ := engineRun_wait_byteDone (k := { s.kse with
    sreg := setByte s.kse.sreg s.kse.pos.toNat (byteOf s.kse.sreg s.kse.pos.toNat ^^^ b) }) ho.idle hpos
  have hw := commandThenWait_of_ok (exec_absorb_of_open ho (absorbByte_eq_byteDone (by omega))) hq
  exact ⟨_, hw, commandThenWait_inv hinv ho.idle hw, hadv.gate ⟨ho.idle, ho.configured, ho.phase, ho.noError⟩,
    hadv.config, hadv.cursor, hadv.pos hpos, hadv.permcnt⟩

theorem absorbAll_absorbed (m : List Byte) (hinv : s.kse.Inv) (ho : s.kse.Open .absorb) :
    ∃ t, absorbAll m s = .next t ∧ s.kse.Absorbed m t.kse := by
  induction m generalizing s with
  | nil => exact ⟨s, rfl, absorbed_nil hinv ho⟩
  | cons b bs ih =>
    obtain ⟨u, hu, hone⟩ := commandThenWait_absorb b hinv ho
    obtain ⟨t, ht, hrest⟩ := ih hone.inv hone.gate
    exact ⟨t, by rw [absorbAll, hu]; exact ht, hone.cons hrest⟩

/-! ### PAD (R166) -/

theorem commandThenWait_pad (hinv : s.kse.Inv) (ho : s.kse.Open .absorb) :
    ∃ u, commandThenWait .pad s = .next u ∧ u.kse.Inv ∧ u.kse.Open .squeeze ∧ u.kse.rate = s.kse.rate ∧
      u.kse.remain = s.kse.outlen ∧
      u.kse.cursor = (sourcePad s.kse.rate.toNat s.kse.suffix s.kse.cursor.2 s.kse.cursor.1, 0) ∧
      u.kse.permcnt = s.kse.permcnt +
        if s.kse.suffix &&& 0x80 ≠ 0 ∧ s.kse.pos.toNat = s.kse.rate.toNat - 1 then 2 else 1 :=
  have hw := paddingEquivalence s hinv ho
  ⟨_, hw, commandThenWait_inv hinv ho.idle hw, ⟨rfl, ho.configured, rfl, ho.noError⟩, rfl, rfl, rfl, rfl⟩

/-! ### SQUEEZE of every byte of the output (R167) -/

/-- R163: the last byte of the output. -/
theorem commandThenWait_squeeze_last (hpos : s.kse.pos.toNat < 200) (ho : s.kse.Open .squeeze)
    (hr : s.kse.remain - 1 = 0) :
    commandThenWait .squeeze s = .next { s with
      kse := { s.kse with
        dout := byteOf s.kse.sreg s.kse.pos.toNat, pos := s.kse.pos + 1, remain := s.kse.remain - 1
        phase := .done } } :=
  commandThenWait_of_ok (exec_squeeze_of_open ho ((squeezeByte_of_lt hpos).trans (by rw [if_pos hr])))
    (engineRun_of_idle 48 ho.idle)

/-- R163: a byte with more to follow. -/
theorem commandThenWait_squeeze_more (hinv : s.kse.Inv) (ho : s.kse.Open .squeeze) (hr : s.kse.remain - 1 ≠ 0) :
    ∃ t, commandThenWait .squeeze s = .next t ∧
      Kse.Advanced { s.kse with dout := byteOf s.kse.sreg s.kse.pos.toNat, remain := s.kse.remain - 1 } t.kse := by
  obtain ⟨hpos, _, _⟩ := hinv.block_bounds ho nofun
  obtain ⟨q, hq, hadv⟩ := engineRun_wait_byteDone (k := { s.kse with
    dout := byteOf s.kse.sreg s.kse.pos.toNat, remain := s.kse.remain - 1 }) ho.idle hpos
  exact ⟨_, commandThenWait_of_ok (exec_squeeze_of_open ho (squeezeByte_eq_byteDone (by omega) hr)) hq, hadv⟩

theorem squeezeAll_succ (hw : commandThenWait .squeeze s = .next t) :
    squeezeAll (n + 1) s = (squeezeAll n t).map fun p => (t.kse.dout :: p.1, p.2) := by
  rw [squeezeAll, hw]

theorem squeezeAll_succ_eq_squeezeFrom (hinv : s.kse.Inv) (ho : s.kse.Open .squeeze)
    (hn : s.kse.remain.toNat = n + 1) :
    ∃ t, squeezeAll (n + 1) s = some (squeezeFrom s.kse.rate.toNat (n + 1) s.kse.cursor, t) ∧
      t.kse.Open .done ∧ t.kse.remain = 0 ∧
      t.kse.permcnt = s.kse.permcnt + BitVec.ofNat 32 ((s.kse.pos.toNat + n) / s.kse.rate.toNat) := by
  induction n generalizing s with
  | zero =>
    obtain ⟨hpos, _, _⟩ := hinv.block_bounds ho nofun
    have hr : s.kse.remain - 1 = 0 := by bv_omega
    refine ⟨_, squeezeAll_succ (commandThenWait_squeeze_last (by omega) ho hr),
      ⟨ho.idle, ho.configured, rfl, ho.noError⟩, hr, ?_⟩
    simp [Nat.div_eq_of_lt hpos]
  | succ n ih =>
    obtain ⟨hpos, _, _⟩ := hinv.block_bounds ho nofun
    have hr : s.kse.remain - 1 ≠ 0 := by bv_omega
    obtain ⟨u, hu, hadv⟩ := commandThenWait_squeeze_more hinv ho hr
    have hou : u.kse.Open .squeeze := hadv.gate ⟨ho.idle, ho.configured, ho.phase, ho.noError⟩
    have hremain : u.kse.remain = s.kse.remain - 1 := congrArg Kse.remain hadv.frame
    have hdout : u.kse.dout = byteOf s.kse.sreg s.kse.pos.toNat := congrArg Kse.dout hadv.frame
    have hrate : u.kse.rate = s.kse.rate := (congrArg Kse.rate hadv.frame :)
    have hpositive : 0 < s.kse.rate.toNat := by omega
    have hposu : u.kse.pos.toNat = (s.kse.pos.toNat + 1) % s.kse.rate.toNat := hadv.pos hpos
    have hcursor : u.kse.cursor = nextCursor s.kse.rate.toNat s.kse.cursor := hadv.cursor
    obtain ⟨t, ht, hot, hrem, hcount⟩ :=
      ih (commandThenWait_inv hinv ho.idle hu) hou (by rw [hremain]; bv_omega)
    refine ⟨t, ?_, hot, hrem, ?_⟩
    · rw [squeezeAll_succ hu, ht, hdout, hrate, hcursor]
      rfl
    · rw [hcount, hadv.permcnt, hrate, hposu, BitVec.add_assoc, ← BitVec.ofNat_add,
        div_add_mod_add_div _ _ hpositive, Nat.add_assoc, Nat.add_comm 1]

/-- R163, R167: the SQUEEZE commands that bring REMAIN to 0 show the bytes from the cursor on. -/
theorem squeezeAll_eq_squeezeFrom (hinv : s.kse.Inv) (ho : s.kse.Open .squeeze) :
    ∃ t, squeezeAll s.kse.remain.toNat s =
        some (squeezeFrom s.kse.rate.toNat s.kse.remain.toNat s.kse.cursor, t) ∧
      t.kse.Open .done ∧ t.kse.remain = 0 ∧
      t.kse.permcnt = s.kse.permcnt +
        BitVec.ofNat 32 ((s.kse.pos.toNat + (s.kse.remain.toNat - 1)) / s.kse.rate.toNat) := by
  obtain ⟨_, _, hsqueeze, _⟩ := hinv.controller
  obtain ⟨n, hn⟩ := Nat.exists_eq_add_of_le' (hsqueeze ho.phase).1
  rw [hn]
  exact squeezeAll_succ_eq_squeezeFrom hinv ho hn

end Sys2Proof.Machine

open Sys2Proof Sys2Proof.Machine

/-- Settles O57. -/
theorem absorptionEquivalence : Obligations.AbsorptionEquivalence := by
  intro s m hinv ho hpos
  obtain ⟨hr, _, _, _⟩ := hinv.config.1 ho.configured
  obtain ⟨t, ht, h⟩ := absorbAll_absorbed m hinv ho
  obtain ⟨_, hrate, _, hsuffix, houtlen⟩ := h.config
  have hlen : s.kse.pos.toNat + m.length = m.length := by simp [hpos]
  exact ⟨t, ht, h.cursor_eq_sourceAbsorb hr hpos, hlen ▸ h.pos, hlen ▸ h.permcnt, h.gate, hrate, hsuffix, houtlen⟩

/-- Settles O59. -/
theorem squeezingEquivalence : Obligations.SqueezingEquivalence := by
  intro s hinv ho hpos
  obtain ⟨hr, _, _, _⟩ := hinv.config.1 ho.configured
  obtain ⟨t, ht, hdone, hremain, hcount⟩ := squeezeAll_eq_squeezeFrom hinv ho
  refine ⟨_, t, ht, ?_, squeezeFrom_length _, hdone.phase, hremain, by simp [hcount, hpos]⟩
  rw [Kse.cursor, hpos]
  exact squeezeFrom_eq_sourceSqueeze hr (Nat.le_refl _)

/-- Settles O60: absorption, padding and squeezing, each from the state the one before leaves. -/
theorem hashEquivalence : Obligations.HashEquivalence := by
  intro s m hinv ho hS hpos hcnt
  obtain ⟨hr, _, _, _⟩ := hinv.config.1 ho.configured
  obtain ⟨t, ht, habs⟩ := absorbAll_absorbed m hinv ho
  obtain ⟨_, hratet, _, hsuffix, houtlen⟩ := habs.config
  have hcursort := habs.cursor_eq_sourceAbsorb hr hpos
  obtain ⟨u, hu, hinvu, hou, hrateu, hremain, hcursoru, hcountu⟩ := commandThenWait_pad habs.inv habs.gate
  obtain ⟨w, hw, hdone, _, hcountw⟩ := squeezeAll_eq_squeezeFrom hinvu hou
  rw [hrateu, hratet, hremain, houtlen] at hw hcountw
  have hposu : u.kse.pos.toNat = 0 := congrArg Prod.snd hcursoru
  refine ⟨t, u, w, _, ht, hu, hw, ?_, squeezeFrom_length _, fun hle => ?_, ?_, ?_⟩
  · rw [hcursoru, hcursort, hS, hratet, hsuffix]
    exact squeezeFrom_eq_sourceSqueeze hr (Nat.le_refl _)
  · rw [Kse.cursor, hposu, squeezeFrom_of_le (by omega), List.range_eq_range']
  · have hlen : s.kse.pos.toNat + m.length = m.length := by simp [hpos]
    rw [hcountw, hcountu, habs.permcnt, habs.pos, hratet, hsuffix, hposu, hcnt, hlen]
    split <;> simp [BitVec.ofNat_add, BitVec.add_assoc]
  · obtain ⟨_, hphase, _⟩ := spongeGateOrder w .squeeze .squeeze (.inr (.inr ⟨rfl, rfl⟩)) hdone.idle
    rw [hphase hdone.configured (by simp [hdone.phase]), Kse.recordError, if_pos hdone.noError]
end

section
/-! What a step leaves in the registers, the program and the schedule depends on those alone, not on the draws taken
before or on the last response (R8, R171); then O56. -/

namespace Sys2Proof.Machine

variable {s u : State}

/-- The two states differ at most in the draw counter and the last response. -/
structure State.SameRegisters (s u : State) : Prop where
  kse : u.kse = s.kse
  program : u.program = s.program
  sched : u.sched = s.sched

/-- Where `o` goes on, `p` goes on to a state with the same registers, program and schedule. -/
def AnswersAlike (o p : Host.Outcome State Fault Refusal) : Prop :=
  ∀ t, o = .next t → ∃ v, p = .next v ∧ t.SameRegisters v

theorem answersAlike_next (h : s.SameRegisters u) : AnswersAlike (.next s) (.next u) := by
  rintro t ⟨⟩
  exact ⟨u, rfl, h⟩

theorem State.SameRegisters.withKse (h : s.SameRegisters u) (k : Kse) :
    State.SameRegisters { s with kse := k } { u with kse := k } := ⟨rfl, h.program, h.sched⟩

theorem State.SameRegisters.nextTurn (h : s.SameRegisters u) : u.nextTurn = s.nextTurn := by
  simp [State.nextTurn, h.kse, h.sched]

theorem onKse_alike (h : s.SameRegisters u) (f : Kse → Except Fault Kse) : AnswersAlike (s.onKse f) (u.onKse f) := by
  intro t ht
  obtain ⟨k, hk, rfl⟩ := onKse_next_iff.mp ht
  exact ⟨_, onKse_of_ok (h.kse ▸ hk), h.withKse k⟩

theorem exec_alike (h : s.SameRegisters u) (i : Instr) : AnswersAlike (exec i s) (exec i u) := by
  cases i <;> exact onKse_alike h _

theorem executeCommand_alike (h : s.SameRegisters u) (v : Word) :
    AnswersAlike (executeCommand v s) (executeCommand v u) := by
  cases hd : decodeWord v with
  | ok i =>
    rw [executeCommand_of_decodeWord_ok hd, executeCommand_of_decodeWord_ok hd]
    exact exec_alike h i
  | error e =>
    rw [executeCommand_of_decodeWord_error hd, executeCommand_of_decodeWord_error hd, h.kse]
    exact answersAlike_next (h.withKse _)

/-- R74: an access. A read's data goes to the response alone. -/
theorem hostStep_alike (h : s.SameRegisters u) (a : Access) : AnswersAlike (hostStep a s) (hostStep a u) := by
  obtain ⟨hk, hp, hs⟩ := h
  cases a with
  | read off n =>
    by_cases hl : legalAccess off n = true
    · rw [hostStep_read_of_legal hl, hostStep_read_of_legal hl]
      exact answersAlike_next ⟨by simp [hk], by simp [hp], by simp [hs]⟩
    · rw [hostStep_read_of_illegal hl, hostStep_read_of_illegal hl]
      exact answersAlike_next ⟨hk, hp, hs⟩
  | write off n v =>
    by_cases hl : legalAccess off n = true
    · rw [hostStep_write_of_legal hl, hostStep_write_of_legal hl]
      have hok : State.SameRegisters { s with response := some .writeOk }
          { u with kse := s.kse, response := some .writeOk } := ⟨rfl, hp, hs⟩
      simp only [State.writeAccess, hk]
      split
      · exact answersAlike_next (hok.withKse _)
      · exact executeCommand_alike hok _
      · exact answersAlike_next (hok.withKse _)
      · exact answersAlike_next hok
    · rw [hostStep_write_of_illegal hl, hostStep_write_of_illegal hl]
      exact answersAlike_next ⟨hk, hp, hs⟩

theorem hostTurn_alike (h : s.SameRegisters u) : AnswersAlike s.hostTurn u.hostTurn := by
  obtain ⟨hk, hp, hs⟩ := h
  cases hprog : s.program with
  | nil =>
    rw [hostTurn_of_nil hprog, hostTurn_of_nil (hp.trans hprog)]
    exact answersAlike_next ⟨hk, hp, hs⟩
  | cons op rest =>
    have hrest : State.SameRegisters { s with program := rest } { u with program := rest } := ⟨hk, rfl, hs⟩
    cases op with
    | access a =>
      rw [hostTurn_of_access hprog, hostTurn_of_access (hp.trans hprog)]
      exact hostStep_alike hrest a
    | wait =>
      rw [hostTurn_of_wait hprog, hostTurn_of_wait (hp.trans hprog), pollStatus_eq, pollStatus_eq]
      exact answersAlike_next ⟨hk, by simp [hk], hs⟩
    | digest =>
      rw [hostTurn_of_digest hprog, hostTurn_of_digest (hp.trans hprog)]
      exact answersAlike_next ⟨hk, by simp [hk], hs⟩

theorem step_alike (h : s.SameRegisters u) : AnswersAlike (step s) (step u) := by
  have hafter : s.afterTurn.SameRegisters u.afterTurn := ⟨h.kse, h.program, congrArg List.tail h.sched⟩
  cases hn : s.nextTurn with
  | host =>
    rw [step_of_host_turn hn, step_of_host_turn (h.nextTurn.trans hn)]
    exact hostTurn_alike hafter
  | engine =>
    rw [step_of_engine_turn hn, step_of_engine_turn (h.nextTurn.trans hn)]
    exact onKse_alike hafter _
  | reset =>
    rw [step_of_reset_turn hn, step_of_reset_turn (h.nextTurn.trans hn)]
    exact answersAlike_next (hafter.withKse _)

end Sys2Proof.Machine

open Sys2Proof Sys2Proof.Machine

/-- Settles O56. -/
theorem drawsReachNoRegister : Obligations.DrawsReachNoRegister := by
  intro s t n r hst
  have hsame : s.SameRegisters { s with drawCount := n, response := r } := ⟨rfl, rfl, rfl⟩
  obtain ⟨u, hu, h⟩ := step_alike hsame t hst
  exact ⟨u, hu, h.kse, h.program, h.sched⟩
end

section
/-! What each control command answers while BUSY = 0 and what it leaves alone on every path (R190 to R195); then O12,
O13, O14, O15, O16 and O21. -/

namespace Sys2Proof.Machine

variable {k q : Kse} {body : Kse → Except Fault Kse} {imm : Byte} {v : Variant}

/-! ### What SELVAR and SETCFG answer (R192, R193) -/

theorem selectVariant_of_row (h : variantRom imm = some v) :
    k.selectVariant imm = .ok (k.loadVariant v).initEffects := by
  simp only [Kse.selectVariant, h]

theorem selectVariant_of_no_row (h : variantRom imm = none) : k.selectVariant imm = .ok (k.recordError .illegal) := by
  simp only [Kse.selectVariant, h]

/-- R31: the ROM's rows are those of the selectors 0 to 3. -/
theorem variantRom_eq_none (h : 3 < imm.toNat) : variantRom imm = none := by
  unfold variantRom
  split
  case h_5 => rfl
  all_goals omega

theorem setConfig_of_valid (h : k.staged.valid = true) : k.setConfig = .ok (k.loadVariant k.staged).initEffects :=
  if_pos h

theorem setConfig_of_not_valid (h : ¬ k.staged.valid = true) :
    k.setConfig = .ok (k.unconfigure.recordError .config) :=
  if_neg h

/-! ### Frames (R105, R223) -/

theorem exists_recordError_eq (k : Kse) (c : ErrCode) : ∃ e, k.recordError c = { k with err := e } :=
  ⟨_, recordError_eq k c⟩

/-- R105: a command changes at most ERR, or its body runs. -/
theorem command_errOnly_or_body (h : Kse.command body k = .ok q) :
    (∃ e, q = { k with err := e }) ∨ body k = .ok q := by
  rcases command_cases h with ⟨_, rfl⟩ | ⟨_, hbody⟩
  · exact .inl (exists_recordError_eq k .busy)
  · exact .inr hbody

/-- The staging registers and the sequencer are in `q` as they are in `k`: what SELVAR and SETCFG leave alone. -/
def Kse.SameStagingSequencer (k q : Kse) : Prop :=
  q = { k with
    configured := q.configured, rate := q.rate, cap := q.cap, suffix := q.suffix, outlen := q.outlen
    sreg := q.sreg, phase := q.phase, pos := q.pos, remain := q.remain, dout := q.dout, err := q.err
    permcnt := q.permcnt }

theorem sameStagingSequencer_recordError (h : k.SameStagingSequencer q) (c : ErrCode) :
    k.SameStagingSequencer (q.recordError c) := by
  obtain ⟨e, he⟩ := exists_recordError_eq q c
  rw [he, h]
  rfl

theorem selectVariant_sameStagingSequencer (h : k.selectVariant imm = .ok q) : k.SameStagingSequencer q := by
  rcases selectVariant_cases h with ⟨_, _, rfl⟩ | ⟨_, rfl⟩
  · rfl
  · exact sameStagingSequencer_recordError (q := k) rfl .illegal

theorem setConfig_sameStagingSequencer (h : k.setConfig = .ok q) : k.SameStagingSequencer q := by
  rcases setConfig_cases h with ⟨_, rfl⟩ | ⟨_, rfl⟩
  · rfl
  · exact sameStagingSequencer_recordError (q := k.unconfigure) rfl .config

theorem command_sameStagingSequencer (hbody : ∀ {q}, body k = .ok q → k.SameStagingSequencer q)
    (h : Kse.command body k = .ok q) : k.SameStagingSequencer q := by
  rcases command_errOnly_or_body h with ⟨e, rfl⟩ | h
  · rfl
  · exact hbody h

end Sys2Proof.Machine

open Sys2Proof Sys2Proof.Machine

/-- Settles O12. -/
theorem nopCompletes : Obligations.NopCompletes := fun _ hb => onKse_of_ok (command_of_idle hb)

/-- Settles O13. -/
theorem initCompletes : Obligations.InitCompletes := fun _ hb => onKse_of_ok (command_of_idle hb)

/-- Settles O14: a row for each selector 0 to 3, and none above. -/
theorem selvarCompletes : Obligations.SelvarCompletes := by
  intro s hb
  have hexec {imm : Byte} {k : Kse} (h : s.kse.selectVariant imm = .ok k) :
      exec (.selvar imm) s = .next { s with kse := k } := onKse_of_ok ((command_of_idle hb).trans h)
  refine ⟨fun p hp => ?_, fun imm himm => hexec (selectVariant_of_no_row (variantRom_eq_none himm))⟩
  have hrow : variantRom p.1 = some ⟨p.2.1, p.2.2.1, p.2.2.2, 0x06⟩ := by
    simp only [List.mem_cons, List.not_mem_nil, or_false] at hp
    rcases hp with rfl | rfl | rfl | rfl
    all_goals rfl
  exact hexec (selectVariant_of_row hrow)

/-- Settles O15. -/
theorem setcfgCompletes : Obligations.SetcfgCompletes := by
  intro s hb
  refine onKse_of_ok ((command_of_idle hb).trans ?_)
  split
  case isTrue hvalid => exact setConfig_of_valid ((valid_iff _).mpr hvalid)
  case isFalse hinvalid =>
    rw [setConfig_of_not_valid (mt (valid_iff _).mp hinvalid), recordError_eq, recordError_err]
    rfl

/-- Settles O16. -/
theorem clrerrCompletes : Obligations.ClrerrCompletes := fun _ hb => onKse_of_ok (command_of_idle hb)

/-- Settles O21: a refused command changes at most ERR, and an executed one what its body writes. -/
theorem controlCommandFrame : Obligations.ControlCommandFrame := by
  refine fun s t => ⟨?_, ?_, ?_⟩
  · rintro (hx | hx)
    all_goals
      obtain ⟨k, hk, rfl⟩ := onKse_next_iff.mp hx
      obtain ⟨e, rfl⟩ | ⟨⟨⟩⟩ := command_errOnly_or_body hk
    all_goals rfl
  · intro hx
    obtain ⟨k, hk, rfl⟩ := onKse_next_iff.mp hx
    obtain ⟨e, rfl⟩ | ⟨⟨⟩⟩ := command_errOnly_or_body hk
    all_goals rfl
  · rintro imm (hx | hx)
    · obtain ⟨k, hk, rfl⟩ := onKse_next_iff.mp hx
      exact congrArg (fun k => { s with kse := k }) (command_sameStagingSequencer selectVariant_sameStagingSequencer hk)
    · obtain ⟨k, hk, rfl⟩ := onKse_next_iff.mp hx
      exact congrArg (fun k => { s with kse := k }) (command_sameStagingSequencer setConfig_sameStagingSequencer hk)
end

section
/-! The error register: what `record_error` does, what keeps a recorded error, and which commands clear it (R221, R225,
R226); then O10 and O52. -/

namespace Sys2Proof.Machine

variable {s t : State} {k q : Kse} {body : Kse → Except Fault Kse} {c : ErrCode}

/-! ### Recording (R221) -/

theorem recordError_of_noError (he : k.err = .noError) : k.recordError c = { k with err := c } := if_pos he

theorem recordError_of_error (he : k.err ≠ .noError) : k.recordError c = k := if_neg he

theorem recordError_err_of_error (he : k.err ≠ .noError) : (k.recordError c).err = k.err :=
  congrArg Kse.err (recordError_of_error he)

/-! ### What keeps a recorded error -/

theorem writeState_err_of_error (he : k.err ≠ .noError) (off : Offset) (n : Size) (v : Lane) :
    (k.writeState off n v).err = k.err :=
  (writeState_err k off n v).trans (if_neg fun hclear => he hclear.2)

/-- R133, R134: the engine never touches ERR. -/
theorem engineStep_err (h : k.engineStep = .ok q) : q.err = k.err := by
  rcases engineStep_cases h with ⟨_, rfl⟩ | ⟨_, _, rfl⟩ | ⟨_, _, h⟩
  · rfl
  · rfl
  · rcases complete_cases h with ⟨_, rfl⟩ | ⟨_, _, rfl⟩
    · rfl
    · rfl

/-- R160, R226: with an error recorded a sponge command changes nothing. -/
theorem sponge_eq_of_error {p : Phase} (he : k.err ≠ .noError) (h : Kse.sponge p body k = .ok q) : q = k := by
  rcases sponge_cases h with ⟨_, rfl⟩ | ⟨_, _, rfl⟩ | ⟨_, _, _, rfl⟩ | ⟨_, _, hnone, _⟩
  · exact recordError_of_error he
  · exact recordError_of_error he
  · rfl
  · exact absurd hnone he

/-! ### The commands that clear ERR (R225) -/

/-- R225: CLRERR, INIT, SELVAR, and SETCFG where the staged configuration is valid. -/
def Kse.ClearsError (k : Kse) (i : Instr) : Prop :=
  i = .clrerr ∨ i = .init ∨ (∃ imm, i = .selvar imm) ∨ (i = .setcfg ∧ k.staged.valid = true)

/-- R225: what a command executed while BUSY = 0 does to a recorded error. -/
theorem exec_err_cases {i : Instr} (hb : s.kse.busy = false) (he : s.kse.err ≠ .noError) (h : exec i s = .next t) :
    t.kse.err = s.kse.err ∨ (t.kse.err = .noError ∧ s.kse.ClearsError i) := by
  obtain ⟨k, rfl, hk⟩ := exec_idle_cases hb h
  rcases hk with ⟨_, rfl⟩ | ⟨hi, rfl⟩ | ⟨imm, hi, hk⟩ | ⟨hi, hk⟩ | ⟨_, _, hk⟩ | ⟨_, hk⟩ | ⟨_, hk⟩ | ⟨_, rfl⟩ | ⟨hi, rfl⟩
  · exact .inl rfl
  · exact .inr ⟨rfl, .inr (.inl hi)⟩
  · rcases selectVariant_cases hk with ⟨_, _, rfl⟩ | ⟨_, rfl⟩
    · exact .inr ⟨rfl, .inr (.inr (.inl ⟨imm, hi⟩))⟩
    · exact .inl (recordError_err_of_error he)
  · rcases setConfig_cases hk with ⟨hv, rfl⟩ | ⟨_, rfl⟩
    · exact .inr ⟨rfl, .inr (.inr (.inr ⟨hi, hv⟩))⟩
    · exact .inl (recordError_err_of_error (k := s.kse.unconfigure) he)
  · exact .inl (congrArg Kse.err (sponge_eq_of_error he hk))
  · exact .inl (congrArg Kse.err (sponge_eq_of_error he hk))
  · exact .inl (congrArg Kse.err (sponge_eq_of_error he hk))
  · exact .inl rfl
  · exact .inr ⟨rfl, .inl hi⟩

/-- R105, R225: a command write keeps a recorded error, or it executes a command that clears ERR. -/
theorem executeCommand_err_cases {v : Word} (he : s.kse.err ≠ .noError) (h : executeCommand v s = .next t) :
    t.kse.err = s.kse.err ∨
    (t.kse.err = .noError ∧ s.kse.busy = false ∧ ∃ i, decodeWord v = .ok i ∧ s.kse.ClearsError i) := by
  rcases executeCommand_kse_cases h with ⟨_, rfl⟩ | ⟨_, _, rfl⟩ | ⟨hb, i, hd, hx⟩
  · exact .inl (recordError_err_of_error he)
  · exact .inl (recordError_err_of_error he)
  · exact (exec_err_cases hb he hx).imp_right fun ⟨hnone, hclears⟩ => ⟨hnone, hb, i, hd, hclears⟩

end Sys2Proof.Machine

open Sys2Proof Sys2Proof.Machine

/-- Settles O10. -/
theorem firstErrorIsKept : Obligations.FirstErrorIsKept := fun _ _ => ⟨recordError_of_noError, recordError_of_error⟩

/-- Settles O52: the engine and the bus accesses keep a recorded error; a command write keeps it or clears ERR. -/
theorem onlyRecoveryClearsTheError : Obligations.OnlyRecoveryClearsTheError := by
  intro s t h he
  rcases step_cases h with ⟨_, hk⟩ | ⟨hn, hk⟩ | ⟨_, hk⟩ | ⟨_, off, n, v, hk⟩ | ⟨_, r, v, hk⟩ | ⟨_, v, rest, hw, hx⟩
  · exact .inl (engineStep_err hk)
  · exact .inr ⟨congrArg Kse.err hk, .inl hn⟩
  · exact .inl (congrArg Kse.err hk)
  · exact .inl (hk ▸ writeState_err_of_error he off n v)
  · exact .inl (hk ▸ writeReg_err s.kse r v)
  · rcases executeCommand_err_cases (s := s.afterCommandWrite rest) he hx with hkept | ⟨hnone, hb, i, hd, hclears⟩
    · exact .inl hkept
    · refine .inr ⟨hnone, .inr ⟨v, rest, hw, hb, ?_⟩⟩
      rcases hclears with rfl | rfl | ⟨imm, rfl⟩ | ⟨rfl, hv⟩
      · exact .inl hd
      · exact .inr (.inl hd)
      · exact .inr (.inr (.inl ⟨imm, hd⟩))
      · exact .inr (.inr (.inr ⟨hd, hv⟩))
end

section
/-! The engine answers in every state of the invariant, and each of its steps leaves one round less to perform (R133,
R134, R261); then O34. -/

namespace Sys2Proof.Machine

variable {k : Kse}

/-! ### Which bytes of S the invariant lets a command address (R30, R34) -/

/-- R37: a phase other than ABSORB needs a configuration. -/
theorem Kse.Inv.configured_of_phase_ne_absorb (h : k.Inv) (hp : k.phase ≠ .absorb) : k.configured = true := by
  obtain ⟨hunconfigured, _⟩ := h.controller
  by_contra hc
  exact hp (hunconfigured (Bool.eq_false_iff.mpr hc)).1

/-- R134: the completion of a collision-case PAD's first permutation addresses a byte of S. -/
theorem Kse.Inv.lastIndex_lt_of_cont (h : k.Inv) (hc : k.cont = true) : k.lastIndex < 200 := by
  obtain ⟨_, _, hcont⟩ := h.sequencer
  have hphase : k.phase = .squeeze := (hcont hc).1
  obtain ⟨hlo, hhi, _, _⟩ := h.config.1 (h.configured_of_phase_ne_absorb (by simp [hphase]))
  rw [lastIndex_of_pos hlo]
  omega

/-! ### The rounds to come (R134, R261) -/

/-- The engine steps until BUSY = 0: what is left of the running permutation, and the 24 rounds of the one that follows
it while CONT = 1. -/
def Kse.roundsLeft (k : Kse) : Nat :=
  if k.busy then (24 - k.rnd.toNat) + (if k.cont then 24 else 0) else 0

theorem roundsLeft_of_idle (hb : k.busy = false) : k.roundsLeft = 0 := by simp [Kse.roundsLeft, hb]

theorem roundsLeft_of_busy (hb : k.busy = true) :
    k.roundsLeft = (24 - k.rnd.toNat) + (if k.cont then 24 else 0) := if_pos hb

theorem roundsLeft_le (k : Kse) : k.roundsLeft ≤ 48 := by
  unfold Kse.roundsLeft
  split
  · split <;> omega
  · omega

/-- While BUSY = 1 a round is left, since RND is below 24. -/
theorem Kse.Inv.idle_of_roundsLeft (h : k.Inv) (hz : k.roundsLeft = 0) : k.busy = false := by
  obtain ⟨hrun, _⟩ := h.sequencer
  by_contra hb
  have hb : k.busy = true := eq_true_of_ne_false hb
  have hlt : k.rnd.toNat < 24 := (hrun hb).1
  rw [roundsLeft_of_busy hb] at hz
  omega

/-- R133, R134: in every state of the invariant the engine step answers, with one round less to perform. -/
theorem Kse.Inv.exists_engineStep (h : k.Inv) :
    ∃ q, k.engineStep = .ok q ∧ q.roundsLeft = k.roundsLeft - 1 := by
  cases hb : k.busy with
  | false => exact ⟨k, engineStep_of_idle hb, by rw [roundsLeft_of_idle hb]⟩
  | true =>
    have hlt : k.rnd.toNat < 24 := (h.sequencer.1 hb).1
    by_cases hr : k.rnd + 1 = 24
    · have hlast : k.rnd.toNat = 23 := by bv_omega
      cases hc : k.cont with
      | false =>
        refine ⟨_, (engineStep_of_last hb hr).trans (complete_of_last (k := k.performRound) hc), ?_⟩
        simp [roundsLeft_of_busy hb, roundsLeft_of_idle, hc, hlast]
      | true =>
        have hindex : k.performRound.lastIndex < 200 := h.lastIndex_lt_of_cont hc
        refine ⟨_, (engineStep_of_last hb hr).trans (complete_of_cont (k := k.performRound) hc hindex), ?_⟩
        simp [roundsLeft_of_busy, hb, hc, hlast]
    · have hsucc : k.performRound.rnd.toNat = k.rnd.toNat + 1 := by rw [performRound_rnd]; bv_omega
      have hne : k.rnd.toNat ≠ 23 := fun he => hr (by bv_omega)
      refine ⟨_, engineStep_of_round hb hr, ?_⟩
      rw [roundsLeft_of_busy hb, roundsLeft_of_busy (k := k.performRound) hb, performRound_cont, hsucc]
      omega

/-- R261: `n` engine steps answer, with `n` rounds less to perform. -/
theorem Kse.Inv.exists_engineRun (h : k.Inv) (n : Nat) :
    ∃ q, k.engineRun n = .ok q ∧ q.roundsLeft = k.roundsLeft - n := by
  induction n with
  | zero => exact ⟨k, rfl, rfl⟩
  | succ n ih =>
    obtain ⟨q, hq, hleft⟩ := ih
    obtain ⟨u, hu, hone⟩ := (h.engineRun hq).exists_engineStep
    refine ⟨u, ?_, by omega⟩
    rw [engineRun_succ, hq]
    exact hu

end Sys2Proof.Machine

open Sys2Proof Sys2Proof.Machine

/-- Settles O34: at most 48 rounds are left, and 48 engine steps perform them. -/
theorem busyEnds : Obligations.BusyEnds := by
  intro k h
  obtain ⟨q, hq, hleft⟩ := h.exists_engineRun 48
  have hle := roundsLeft_le k
  exact ⟨q, hq, (h.engineRun hq).idle_of_roundsLeft (by omega)⟩
end

section
/-! Every command, every bus access and every turn goes on in a state of the invariant (R222, R256, R262); then O50. -/

namespace Sys2Proof.Machine

variable {s : State} {k : Kse} {body : Kse → Except Fault Kse} {p : Phase}

/-! ### The commands (R105, R160) -/

/-- R160: a sponge command goes on if its body does behind an open gate. -/
theorem exists_sponge (hb : k.busy = false) (hbody : k.Open p → ∃ q, body k = .ok q) :
    ∃ q, Kse.sponge p body k = .ok q := by
  cases hc : k.configured with
  | false => exact ⟨_, sponge_of_unconfigured hc⟩
  | true =>
    by_cases hp : k.phase = p
    · by_cases he : k.err = .noError
      · exact sponge_of_open hc hp he ▸ hbody ⟨hb, hc, hp, he⟩
      · exact ⟨_, sponge_of_poisoned hc hp he⟩
    · exact ⟨_, sponge_of_phase_ne hc hp⟩

/-- R105: while BUSY = 0 a command goes on if its body does. -/
theorem answered_command (hb : s.kse.busy = false) (hbody : ∃ q, body s.kse = .ok q) :
    Answered (s.onKse (Kse.command body)) := by
  obtain ⟨q, hq⟩ := hbody
  exact ⟨_, onKse_of_ok ((command_of_idle hb).trans hq)⟩

theorem exists_selectVariant (imm : Byte) (k : Kse) : ∃ q, k.selectVariant imm = .ok q := by
  cases hrow : variantRom imm with
  | some v => exact ⟨_, selectVariant_of_row hrow⟩
  | none => exact ⟨_, selectVariant_of_no_row hrow⟩

theorem exists_setConfig (k : Kse) : ∃ q, k.setConfig = .ok q := by
  by_cases hv : k.staged.valid = true
  · exact ⟨_, setConfig_of_valid hv⟩
  · exact ⟨_, setConfig_of_not_valid hv⟩

/-- R30, R34, R222: every command goes on; the sponge commands address bytes of S only. -/
theorem Kse.Inv.exec_answered (h : s.kse.Inv) (i : Instr) : Answered (exec i s) := by
  cases hb : s.kse.busy with
  | true => exact ⟨_, exec_of_busy i hb⟩
  | false =>
    cases i with
    | nop => exact answered_command hb ⟨_, rfl⟩
    | init => exact answered_command hb ⟨_, rfl⟩
    | selvar imm => exact answered_command hb (exists_selectVariant imm s.kse)
    | setcfg => exact answered_command hb (exists_setConfig s.kse)
    | absorb imm =>
      refine answered_command hb (exists_sponge hb fun ho => ?_)
      obtain ⟨hpos, _, hrate⟩ := h.block_bounds ho nofun
      exact ⟨_, absorbByte_of_lt (by omega)⟩
    | pad =>
      refine answered_command hb (exists_sponge hb fun ho => ?_)
      obtain ⟨hpos, hlast, hrate⟩ := h.block_bounds ho nofun
      exact ⟨_, padBlock_of_lt (by omega) (by omega)⟩
    | squeeze =>
      refine answered_command hb (exists_sponge hb fun ho => ?_)
      obtain ⟨hpos, _, hrate⟩ := h.block_bounds ho nofun
      exact ⟨_, squeezeByte_of_lt (by omega)⟩
    | permute => exact answered_command hb ⟨_, rfl⟩
    | clrerr => exact answered_command hb ⟨_, rfl⟩

theorem Kse.Inv.executeCommand_answered (h : s.kse.Inv) (v : Word) : Answered (executeCommand v s) := by
  cases hd : decodeWord v with
  | ok i => exact executeCommand_of_decodeWord_ok hd ▸ h.exec_answered i
  | error e => exact ⟨_, executeCommand_of_decodeWord_error hd⟩

/-! ### The bus accesses and the turns (R2, R74, R82) -/

theorem Kse.Inv.writeAccess_answered (h : s.kse.Inv) (off : Offset) (n : Size) (v : Lane) :
    Answered (s.writeAccess off n v) := by
  unfold State.writeAccess
  split
  · exact ⟨_, rfl⟩
  · exact Kse.Inv.executeCommand_answered (s := { s with response := some .writeOk }) h _
  · exact ⟨_, rfl⟩
  · exact ⟨_, rfl⟩

theorem Kse.Inv.hostStep_answered (h : s.kse.Inv) (a : Access) : Answered (hostStep a s) := by
  cases a with
  | read off n =>
    obtain ⟨t, ht, _⟩ := readsHaveNoSideEffect s off n
    exact ⟨t, ht⟩
  | write off n v =>
    by_cases hl : legalAccess off n = true
    · exact hostStep_write_of_legal hl ▸ h.writeAccess_answered off n v
    · exact ⟨_, hostStep_write_of_illegal hl⟩

theorem Kse.Inv.hostTurn_answered (h : s.kse.Inv) : Answered s.hostTurn := by
  cases hp : s.program with
  | nil => exact ⟨_, hostTurn_of_nil hp⟩
  | cons op rest =>
    cases op with
    | access a =>
      exact hostTurn_of_access hp ▸ Kse.Inv.hostStep_answered (s := { s with program := rest }) h a
    | wait => exact ⟨_, (hostTurn_of_wait hp).trans (pollStatus_eq rest _)⟩
    | digest => exact ⟨_, hostTurn_of_digest hp⟩

end Sys2Proof.Machine

open Sys2Proof Sys2Proof.Machine

/-- Settles O50, a case per mover. -/
theorem everyStepAnswers : Obligations.EveryStepAnswers := by
  intro s h
  cases hn : s.nextTurn with
  | host => exact step_of_host_turn hn ▸ Kse.Inv.hostTurn_answered (s := s.afterTurn) h
  | engine =>
    obtain ⟨q, hq, _⟩ := h.exists_engineStep
    exact ⟨_, (step_of_engine_turn hn).trans (onKse_of_ok (s := s.afterTurn) hq)⟩
  | reset => exact ⟨_, step_of_reset_turn hn⟩
end

section
/-! Which commands set BUSY (R132, R254) and the state after reset (R250); then O54 and O47. -/

namespace Sys2Proof.Machine

variable {s t : State} {k q : Kse}

/-- R254: the commands that start a permutation, with their conditions. -/
def Kse.StartsPermutation (k : Kse) (i : Instr) : Prop :=
  (∃ imm, i = .absorb imm ∧ k.pos + 1 = k.rate) ∨ i = .pad ∨
    (i = .squeeze ∧ k.pos + 1 = k.rate ∧ k.remain - 1 ≠ 0) ∨ i = .permute

theorem Kse.SameControl.busy (h : k.SameControl q) : q.busy = k.busy := by rw [h]

theorem Kse.SameStagingSequencer.busy (h : k.SameStagingSequencer q) : q.busy = k.busy := by rw [h]

/-- R160: a refused sponge command keeps BUSY, and an executed one does what its body does. -/
theorem sponge_busy_or_body {p : Phase} {body : Kse → Except Fault Kse} (h : Kse.sponge p body k = .ok q) :
    q.busy = k.busy ∨ body k = .ok q :=
  (sponge_sameControl_or_open h).imp Kse.SameControl.busy fun ⟨_, _, hbody⟩ => hbody

theorem absorbByte_busy_or_full {imm : Byte} (h : k.absorbByte imm = .ok q) :
    q.busy = k.busy ∨ k.pos + 1 = k.rate := by
  obtain ⟨_, ⟨hfull, _⟩ | ⟨_, rfl⟩⟩ := absorbByte_cases h
  · exact .inr hfull
  · exact .inl rfl

theorem squeezeByte_busy_or_full (h : k.squeezeByte = .ok q) :
    q.busy = k.busy ∨ (k.pos + 1 = k.rate ∧ k.remain - 1 ≠ 0) := by
  obtain ⟨_, ⟨_, rfl⟩ | ⟨hrem, hfull, _⟩ | ⟨_, _, rfl⟩⟩ := squeezeByte_cases h
  · exact .inl rfl
  · exact .inr ⟨hfull, hrem⟩
  · exact .inl rfl

/-- R254: a command executed while BUSY = 0 keeps BUSY, or it is one that starts a permutation. -/
theorem exec_busy_or_starts {i : Instr} (hb : s.kse.busy = false) (h : exec i s = .next t) :
    t.kse.busy = s.kse.busy ∨ s.kse.StartsPermutation i := by
  obtain ⟨k, rfl, hk⟩ := exec_idle_cases hb h
  rcases hk with ⟨_, rfl⟩ | ⟨_, rfl⟩ | ⟨imm, _, hk⟩ | ⟨_, hk⟩ | ⟨imm, hi, hk⟩ | ⟨hi, _⟩ | ⟨hi, hk⟩ | ⟨hi, _⟩ | ⟨_, rfl⟩
  · exact .inl rfl
  · exact .inl rfl
  · exact .inl (selectVariant_sameStagingSequencer hk).busy
  · exact .inl (setConfig_sameStagingSequencer hk).busy
  · rcases sponge_busy_or_body hk with hkept | hbody
    · exact .inl hkept
    · exact (absorbByte_busy_or_full hbody).imp_right fun hfull => .inl ⟨imm, hi, hfull⟩
  · exact .inr (.inr (.inl hi))
  · rcases sponge_busy_or_body hk with hkept | hbody
    · exact .inl hkept
    · exact (squeezeByte_busy_or_full hbody).imp_right fun hfull => .inr (.inr (.inl ⟨hi, hfull⟩))
  · exact .inr (.inr (.inr (.inr hi)))
  · exact .inl rfl

end Sys2Proof.Machine

open Sys2Proof Sys2Proof.Machine

/-- Settles O54: an idle engine, a reset and every other host step keep BUSY or clear it. -/
theorem onlyListedCommandsStartAPermutation : Obligations.OnlyListedCommandsStartAPermutation := by
  intro s t h hidle hbusy
  have hset : t.kse.busy ≠ s.kse.busy := by simp [hidle, hbusy]
  rcases step_sameControl_or_exec h with ⟨_, hk⟩ | ⟨_, hk⟩ | ⟨_, hk⟩ | ⟨_, v, rest, i, hw, hb, hd, hx⟩
  · rw [engineStep_of_idle hidle] at hk
    injection hk with hk
    exact absurd (congrArg Kse.busy hk.symm) hset
  · exact absurd ((congrArg Kse.busy hk).trans hidle.symm) hset
  · exact absurd hk.busy hset
  · refine ⟨v, rest, hw, ?_⟩
    rcases (exec_busy_or_starts (s := s.afterCommandWrite rest) hb hx).resolve_left hset with
      ⟨imm, rfl, hfull⟩ | rfl | ⟨rfl, hfull⟩ | rfl
    · exact .inl ⟨imm, hd, hfull⟩
    · exact .inr (.inl hd)
    · exact .inr (.inr (.inl ⟨hd, hfull⟩))
    · exact .inr (.inr (.inr hd))

/-- Settles O47: the reset turn reads no register, so it leads to the reset state from a busy KSE too. -/
theorem resetValues : Obligations.ResetValues :=
  ⟨rfl, by decide, by decide, fun _ hn => ⟨_, step_of_reset_turn hn, rfl⟩⟩
end
